-- ==== Sys2Proof/Config.lean ====
section
/-! DEFINITION. What is fixed when a block is constructed (R5 to R9): the construction parameters and the
choice the spec fixes for a write through an invalid address. -/

namespace Sys2Proof

/-- R5 to R8: the construction parameters, which the host supplies once and no rule changes afterwards.
`initText` is the text of the initial-contents file, as characters (R7, D12); `domain` is never read (R8). -/
structure Params where
  depth : Nat
  width : Nat
  initText : List Char
  domain : List Char
  deriving DecidableEq, Repr

/-- R9, D8: the two answers the source permits for a write through an invalid address.
The spec fixes `poisonAll`; `noop` is recorded as the alternative it does not take. -/
inductive WritePolicy where
  | poisonAll
  | noop
  deriving DecidableEq, Repr

end Sys2Proof
end

