-- ==== Sys2Proof/Word.lean ====
section
/-! DEFINITION. The value domain of the block: a Word (R10) and the level of one port bit (R43). -/

namespace Sys2Proof

/-- R10: a Word is a defined unsigned integer of `M` bits or the single marker Undefined.
The width `M` is a parameter of the block, so the bound `v < 2 ^ M` is `Word.fits`, not part of the type.
`undef` is distinct from every defined word, zero included. -/
inductive Word where
  | undef
  | defined (v : Nat)
  deriving DecidableEq, Repr

/-- R10: membership in the domain of Words of width `m`, which has `2 ^ m + 1` members. -/
def Word.fits (m : Nat) : Word → Bool
  | .undef => true
  | .defined v => decide (v < 2 ^ m)

/-- R43, D6: what one bit of a port carries, as a four-state simulation of the ports sees it.
`unknown` is a bit that is not a known `0` or `1` (DEDUCED for a high-impedance level, log entry 10). -/
inductive Level where
  | zero
  | one
  | unknown
  deriving DecidableEq, Repr

end Sys2Proof
end

