-- ==== Sys2Proof/Syntax.lean ====
section
/-! DEFINITION. What the host presents in one cycle: addresses (R12), the operations RD and RDWR (R38), the
CycleInput tuple (R36), the pins (R41), the packed command word (R44) and the written lines (R49, R50). -/

namespace Sys2Proof

/-- R12: an Address is any integer or the Undefined marker; being inside `[0, N)` is no constraint of the type. -/
inductive Address where
  | undef
  | int (z : Int)
  deriving DecidableEq, Repr

/-- R38: the complete operation set, one constructor per row of the operation table.
RD carries only its read address, because the two write fields are not consumed (R39). -/
inductive Instr where
  | rd (readAddr : Address)
  | rdwr (readAddr writeAddr : Address) (writeData : Word)
  deriving DecidableEq, Repr

/-- R36: the CycleInput, its four fields in the source's order.
writeEnable is two-valued, as D7 requires. -/
structure CycleInput where
  readAddr : Address
  writeEnable : Bool
  writeAddr : Address
  writeData : Word
  deriving DecidableEq, Repr

/-- R41: the levels on the input pins when the active edge samples them; bit `k` of a port is element `k` of its
list (D5: bit 0 is the least significant). There is no other input pin than these and the clock (R118). -/
structure Pins where
  rdAddr : List Level
  we : Level
  wrAddr : List Level
  wrData : List Level
  deriving DecidableEq, Repr

/-- The three forms in which the spec writes one cycle's input: the tuple (R36), the packed command word (R44)
and the pins (R41). -/
inductive Stimulus where
  | tuple (c : CycleInput)
  | word (w : Nat)
  | pins (p : Pins)
  deriving DecidableEq, Repr

/-- R49, R50: one line of the written form of a program, the pseudo-operations WR, XCHG and NOP among them. -/
inductive Line where
  | rd (r : Address)
  | rdwr (r w : Address) (d : Word)
  | wr (w : Address) (d : Word)
  | xchg (a : Address) (d : Word)
  | nop
  deriving DecidableEq, Repr

end Sys2Proof
end

