-- ==== Sys2Proof/WellFormed.lean ====
section
/-! DEFINITION. Which terms of the syntax lie in the spec's domains: word data of the block's width (R36), a
positive depth (D15). -/

namespace Sys2Proof

/-- R36: an operation of a block of width `m` is well formed when its data is a Word of that width.
Every address is in the domain (R12). -/
def Instr.wf (m : Nat) : Instr → Bool
  | .rd _ => true
  | .rdwr _ _ d => d.fits m

/-- R36, R39: a CycleInput is admitted when the fields its operation consumes lie in their domains.
With writeEnable false the write fields may hold anything. -/
def CycleInput.wf (m : Nat) (c : CycleInput) : Bool :=
  !c.writeEnable || c.writeData.fits m

/-- R5, D15: the depth is at least one; every width is admitted (R6: the rules are total for width zero; DESIGN CHOICE,
log entry 12). -/
def Params.wf (p : Params) : Bool :=
  decide (1 ≤ p.depth)

end Sys2Proof
end

