-- ==== Sys2Proof/Decode.lean ====
section
/-! DEFINITION. Encodings: operation selection (R38), the packed command word and its encoder (R44), the ports
(R42, R43) and the written form of a program (R49, R50). -/

namespace Sys2Proof

/-- Why a word or a written line stands for no CycleInput. -/
inductive DecodeError where
  /-- The number has a one above the `CW` bits of a command word (R44). -/
  | commandTooWide
  /-- The line begins with none of RD, RDWR, WR, XCHG, NOP (R49, R50). -/
  | unknownMnemonic
  /-- The line has another number of operands than its mnemonic takes. -/
  | operandCount
  /-- An operand is none of the numbers R49 admits in its place. -/
  | badOperand
  deriving DecidableEq, Repr

/-- Why the levels on the input pins stand for no CycleInput. -/
inductive PinError where
  /-- A port carries another number of bits than R41 gives it. -/
  | vectorLength
  /-- The `we` pin is not a known `0` or `1`, to which the spec gives no meaning (R43, D7). -/
  | unknownWriteEnable
  deriving DecidableEq, Repr

/-- R9, R42, D4: `AW = max(1, ceil(log2 N))`, the width of the two address ports. -/
def addrWidth (n : Nat) : Nat :=
  if n ≤ 2 then 1 else Nat.log2 (n - 1) + 1

/-- R44: `CW = 1 + 2*AW + M`, the width of a command word. -/
def cmdWidth (n m : Nat) : Nat :=
  1 + 2 * addrWidth n + m

/-- R38: writeEnable alone selects the operation; RD consumes neither write field (R39). -/
def CycleInput.select (c : CycleInput) : Instr :=
  match c.writeEnable with
  | true => .rdwr c.readAddr c.writeAddr c.writeData
  | false => .rd c.readAddr

/-- R49: the CycleInput an operation denotes, with `Int 0` and `Def 0` in the unused fields of RD. -/
def Instr.toTuple : Instr → CycleInput
  | .rd r => ⟨r, false, .int 0, .defined 0⟩
  | .rdwr r w d => ⟨r, true, w, d⟩

/-! ## The packed command word (R44) -/

/-- The `width` bits of `w` from bit `lo` upwards. -/
def bitField (w lo width : Nat) : Nat :=
  w / 2 ^ lo % 2 ^ width

/-- R44: the CycleInput a command word of a block of depth `n` and width `m` stands for. -/
def unpackCycle (n m w : Nat) : CycleInput :=
  let aw := addrWidth n
  { readAddr := .int (bitField w 1 aw)
    writeEnable := w % 2 == 1
    writeAddr := .int (bitField w (aw + 1) aw)
    writeData := .defined (bitField w (2 * aw + 1) m) }

/-- R44, R38: the operation a command word stands for; a number with a bit above `CW` is rejected (DESIGN CHOICE, log
entry 9). -/
def decodeCmd (n m w : Nat) : Except DecodeError Instr :=
  if w < 2 ^ cmdWidth n m then .ok (unpackCycle n m w).select else .error .commandTooWide

/-- R42: the bit pattern of an address on a port of `aw` bits, where it has one. -/
def Address.pattern (aw : Nat) : Address → Option Nat
  | .undef => none
  | .int z => if 0 ≤ z ∧ z < 2 ^ aw then some z.toNat else none

/-- R43: the bit pattern of a word on a port of `m` bits, where it has one. -/
def Word.pattern (m : Nat) : Word → Option Nat
  | .undef => none
  | .defined v => if v < 2 ^ m then some v else none

/-- R44: `cmd = we + 2*ra + 2^(AW+1)*wa + 2^(2*AW+1)*wd`; a CycleInput with an Undefined field, or with an address
too wide for its port, has no packed form. -/
def packCycle (n m : Nat) (c : CycleInput) : Option Nat :=
  let aw := addrWidth n
  match c.readAddr.pattern aw, c.writeAddr.pattern aw, c.writeData.pattern m with
  | some ra, some wa, some wd =>
      some (c.writeEnable.toNat + 2 * ra + 2 ^ (aw + 1) * wa + 2 ^ (2 * aw + 1) * wd)
  | _, _, _ => none

/-- R44: the command word of an operation; the canonical form of RD has zero in the two unused fields. -/
def encodeCmd (n m : Nat) (i : Instr) : Option Nat :=
  packCycle n m i.toTuple

/-- The depth at which a word of the operation table is read: that of the worked example of R44 (DESIGN CHOICE, log
entry 9). -/
def tableDepth : Nat := 3

/-- The width at which a table word of `nbits` bits is read: that of the worked example of R44 (`CW = 8`), or as
many data bits as a longer word needs (DESIGN CHOICE, log entry 9). -/
def tableWidth (nbits : Nat) : Nat :=
  max 3 (nbits - 5)

/-- The operation that a table word stands for in a block of depth `tableDepth` and width `tableWidth nbits`. -/
def decodeTableWord (nbits w : Nat) : Option Instr :=
  match decodeCmd tableDepth (tableWidth nbits) w with
  | .ok i => some i
  | .error _ => none

/-! ## The ports (R41 to R43) -/

/-- R42, R43: the unsigned number on a port, least significant bit first; none where a bit is unknown. -/
def levelsValue : List Level → Option Nat
  | [] => some 0
  | .unknown :: _ => none
  | .zero :: t => (levelsValue t).map fun v => 2 * v
  | .one :: t => (levelsValue t).map fun v => 2 * v + 1

/-- The level that drives one known bit. -/
def levelOf (b : Bool) : Level :=
  if b then .one else .zero

/-- R42, R43: the levels of the `width` low bits of a number, least significant bit first. -/
def levelsOf (width v : Nat) : List Level :=
  (List.range width).map fun k => levelOf (v.testBit k)

/-- R42, R43: the Address on an address port; one unknown bit makes it Undefined. -/
def addressOfLevels (ls : List Level) : Address :=
  match levelsValue ls with
  | some b => .int b
  | none => .undef

/-- R43: the Word on a data port; one unknown bit makes it Undefined. -/
def wordOfLevels (ls : List Level) : Word :=
  match levelsValue ls with
  | some v => .defined v
  | none => .undef

/-- R43: what a data port of `m` bits shows of a Word; Undefined has no pattern, so every bit is unknown. -/
def Word.levels (m : Nat) : Word → List Level
  | .undef => List.replicate m .unknown
  | .defined v => levelsOf m v

/-- R41 to R43: the CycleInput the active edge samples from the pins of a block of depth `n` and width `m`.
A port of another length and an unknown write enable stand for none (log entry 10). -/
def Pins.sample (n m : Nat) (p : Pins) : Except PinError CycleInput :=
  if p.rdAddr.length = addrWidth n ∧ p.wrAddr.length = addrWidth n ∧ p.wrData.length = m then
    match p.we with
    | .unknown => .error .unknownWriteEnable
    | .zero => .ok ⟨addressOfLevels p.rdAddr, false, addressOfLevels p.wrAddr, wordOfLevels p.wrData⟩
    | .one => .ok ⟨addressOfLevels p.rdAddr, true, addressOfLevels p.wrAddr, wordOfLevels p.wrData⟩
  else .error .vectorLength

/-! ## The written form of a program (R49, R50) -/

/-- R49, R50: the CycleInput a written line denotes. -/
def Line.expand : Line → CycleInput
  | .rd r => ⟨r, false, .int 0, .defined 0⟩
  | .rdwr r w d => ⟨r, true, w, d⟩
  | .wr w d => ⟨.int 0, true, w, d⟩
  | .xchg a d => ⟨a, true, a, d⟩
  | .nop => ⟨.int 0, false, .int 0, .defined 0⟩

/-- A text cut at every `sep`; `k` separators give `k + 1` pieces. -/
def cutAt (sep : Char) : List Char → List (List Char)
  | [] => [[]]
  | c :: t =>
    if c = sep then [] :: cutAt sep t
    else
      match cutAt sep t with
      | [] => [[c]]
      | l :: ls => (c :: l) :: ls

/-- The value of a digit of a written number in base `base`, decimal or hexadecimal. -/
def digitValue (base : Nat) (c : Char) : Option Nat :=
  let n := c.toNat
  let v :=
    if 48 ≤ n ∧ n ≤ 57 then n - 48
    else if 65 ≤ n ∧ n ≤ 70 then n - 55
    else if 97 ≤ n ∧ n ≤ 102 then n - 87
    else base
  if v < base then some v else none

/-- The number that a sequence of digits continues from `acc`. -/
def digitsFrom (base : Nat) : Nat → List Char → Option Nat
  | acc, [] => some acc
  | acc, c :: t =>
    match digitValue base c with
    | some v => digitsFrom base (base * acc + v) t
    | none => none

/-- R49: an unsigned decimal or `0x` hexadecimal integer. -/
def writtenNat : List Char → Option Nat
  | [] => none
  | '0' :: 'x' :: c :: t => digitsFrom 16 0 (c :: t)
  | c :: t => digitsFrom 10 0 (c :: t)

/-- R49: a written address: `X`, a negative decimal integer, or an unsigned integer. -/
def writtenAddress : List Char → Option Address
  | ['X'] => some .undef
  | '-' :: c :: t => (digitsFrom 10 0 (c :: t)).map fun v => .int (-(v : Int))
  | s => (writtenNat s).map fun v => .int v

/-- R49: a written data operand: `X` or an unsigned integer. -/
def writtenWord : List Char → Option Word
  | ['X'] => some .undef
  | s => (writtenNat s).map .defined

/-- R49, R50: the line a mnemonic and its operands make. -/
def lineOf (mnemonic : List Char) (ops : List (List Char)) : Except DecodeError Line :=
  let addr (s : List Char) : Except DecodeError Address :=
    match writtenAddress s with
    | some a => .ok a
    | none => .error .badOperand
  let word (s : List Char) : Except DecodeError Word :=
    match writtenWord s with
    | some d => .ok d
    | none => .error .badOperand
  match mnemonic, ops with
  | ['R', 'D'], [r] => do return .rd (← addr r)
  | ['R', 'D', 'W', 'R'], [r, w, d] => do return .rdwr (← addr r) (← addr w) (← word d)
  | ['W', 'R'], [w, d] => do return .wr (← addr w) (← word d)
  | ['X', 'C', 'H', 'G'], [a, d] => do return .xchg (← addr a) (← word d)
  | ['N', 'O', 'P'], [] => .ok .nop
  | m, _ =>
    if m = ['R', 'D'] ∨ m = ['R', 'D', 'W', 'R'] ∨ m = ['W', 'R'] ∨ m = ['X', 'C', 'H', 'G'] ∨ m = ['N', 'O', 'P']
    then .error .operandCount else .error .unknownMnemonic

/-- R49, R50: one written line: the mnemonic up to the first space, then the operands cut at commas, with spaces
ignored (DESIGN CHOICE, log entry 11). -/
def readLine (s : List Char) : Except DecodeError Line :=
  let mnemonic := s.takeWhile (· != ' ')
  let rest := (s.dropWhile (· != ' ')).filter (· != ' ')
  lineOf mnemonic (if rest.isEmpty then [] else cutAt ',' rest)

/-- R49: a program is a sequence of lines, one per cycle, cycle 0 first. -/
def assemble : List (List Char) → Except DecodeError (List CycleInput)
  | [] => .ok []
  | s :: t =>
    match readLine s, assemble t with
    | .ok l, .ok cs => .ok (l.expand :: cs)
    | .error e, _ => .error e
    | .ok _, .error e => .error e

end Sys2Proof
end

