-- ==== Sys2Proof/Machine/State.lean ====
section
/-! DEFINITION. The state of one block instance (R14, R15), the host's side of its interface as plain data
(R82, R107, R117), and why a step can stop (R94, R95, D7, D15). -/

namespace Sys2Proof.Machine

/-- Where an instance is in its life (R20, R96, R107, R117): not yet constructed, running, or over. -/
inductive Phase where
  | unbuilt
  | running
  | ended
  deriving DecidableEq, Repr

/-- One cell of the array and the Word it holds (R23: the Word is the unit of addressing, there are no bytes). -/
abbrev Cell := Nat × Word

/-- R14: the array, as the list of its cells that hold a defined Word, in one canonical form (`Memory.wf`).
A cell that is not listed holds Undefined (DEDUCED, log entry 6). -/
abbrev Memory := List Cell

/-- What the host does to a block (R107, R82, R117): construct it, present one cycle's input, end the run.
That these stand in one list of the state is the model's form (DESIGN CHOICE, log entry 3). -/
inductive Event where
  | construct (p : Params)
  | cycle (x : Stimulus)
  | finish
  deriving DecidableEq, Repr

/-- Why the machine stops with an error of the spec's own. -/
inductive Fault where
  /-- R94, R57: a line of the initial-contents file has no leading `0` or `1`; carries the line.
  Raised by LOAD during construction. Safe: the spec aborts construction, and no block exists afterwards (R96). -/
  | parseError (line : List Char)
  /-- R95, R67: the number of lines is not the declared depth; carries both.
  Raised by CONSTRUCT. Safe: the spec aborts construction, and no block exists afterwards (R96). -/
  | depthMismatch (declared found : Nat)
  deriving DecidableEq, Repr

/-- Why a step has no meaning: each is a thing the host did that the spec gives no meaning, never an operation
(DESIGN CHOICE, log entry 5). -/
inductive Refusal where
  /-- An operation that has no meaning yet. Raised by no arm of exec in this model. Safe: the machine stops. -/
  | notModelled (mnemonic : String)
  /-- The host has presented nothing. Raised by step. Safe: a cycle exists only where its input exists (R82, R86). -/
  | noHostEvent
  /-- A cycle input, or the end of the run, reached an instance that is not running (R96, R107, R117).
  Raised by step. Safe: no cycle runs without a constructed block. -/
  | noBlock
  /-- A second construction of one instance (R65, R109: once per instance). Raised by step.
  Safe: a new block is a new instance with new state (R97). -/
  | alreadyConstructed
  /-- Construction with depth zero (R5, D15: refused). Raised by step. Safe: no block exists. -/
  | zeroDepth
  /-- Write data that is no Word of the block's width (R36). Raised by step. Safe: no such input exists. -/
  | outsideDomain
  /-- A number that is no command word (R44). Raised by step. Safe: it stands for no CycleInput. -/
  | undecodable (e : DecodeError)
  /-- Pin levels that stand for no CycleInput, an unknown write enable among them (R43, D7). Raised by step.
  Safe: the spec gives an unknown write enable no meaning, and D7 forbids mapping it to false. -/
  | badPins (e : PinError)
  deriving DecidableEq, Repr

/-- One block instance and its interface.
`mem` and `q` are the whole state of the block (R17). `depth`, `width` and `domain` are the parameters it was
constructed with (R19: they never change in a run). `events` is what the host has presented and the block has not
consumed; `emitted` is every CycleOutput so far, the first one first (R82).
The last two and `phase` are the host's side of the block as plain data (DESIGN CHOICE, log entries 3 and 4). -/
structure State where
  phase : Phase
  depth : Nat
  width : Nat
  domain : List Char
  mem : Memory
  q : Word
  events : List Event
  emitted : List Word
  deriving DecidableEq, Repr

/-- Before construction (R107): no parameters, no array, nothing presented, nothing emitted; the output register is
Undefined, as R16 has it when a block comes to exist.
That reset stands before construction, and the parameters' values there, are DESIGN CHOICE (log entries 1 and 2). -/
def State.reset : State :=
  { phase := .unbuilt, depth := 0, width := 0, domain := [], mem := [], q := .undef, events := [], emitted := [] }

def State.setMem (s : State) (m : Memory) : State := { s with mem := m }

def State.setQ (s : State) (w : Word) : State := { s with q := w }

def State.setEvents (s : State) (es : List Event) : State := { s with events := es }

def State.setEmitted (s : State) (ws : List Word) : State := { s with emitted := ws }

/-- R67, R16: the block that comes to exist: its parameters, its array and the register's value. -/
def State.install (s : State) (p : Params) (m : Memory) : State :=
  { s with phase := .running, depth := p.depth, width := p.width, domain := p.domain, mem := m, q := .undef }

/-- R20, R117: the run is over; the array and the register are discarded (DESIGN CHOICE, log entry 3). -/
def State.discard (s : State) : State :=
  { s with phase := .ended, mem := [], q := .undef }

end Sys2Proof.Machine
end

