-- ==== Sys2Proof/Machine/Operands.lean ====
section
/-! DEFINITION. The one operand form of the block: the absolute word address (R13, R23). -/

namespace Sys2Proof.Machine

/-- R13, D9: the cell an Address designates in an array of `n` cells; none for an invalid Address, which is
Undefined, negative, or at least `n`. No address wraps. -/
def resolve (n : Nat) : Address → Option Nat
  | .undef => none
  | .int z => if 0 ≤ z ∧ z < n then some z.toNat else none

end Sys2Proof.Machine
end

