-- ==== Sys2Proof/Machine/Ops.lean ====
section
/-! DEFINITION. The named operations over the array, the output register and the output stream, and the abort of
construction, which is the block's only exception (R96). -/

namespace Sys2Proof.Machine

/-- The Word an unlisted cell holds (DEDUCED, log entry 6). -/
def unlistedWord : Word := .undef

/-- The content of one cell. -/
def Memory.get : Memory → Nat → Word
  | [], _ => unlistedWord
  | (k, v) :: t, a => if k = a then v else Memory.get t a

/-- A cell put in front of later cells, unless it holds what an unlisted cell holds. -/
def Memory.put (a : Nat) (w : Word) (t : Memory) : Memory :=
  if w = unlistedWord then t else (a, w) :: t

/-- R71: one cell replaced, the canonical form kept. -/
def Memory.set : Memory → Nat → Word → Memory
  | [], a, w => Memory.put a w []
  | (k, v) :: t, a, w =>
    if a < k then Memory.put a w ((k, v) :: t)
    else if a = k then Memory.put a w t
    else (k, v) :: Memory.set t a w

/-- R72: the array with Undefined in every cell. -/
def Memory.poison : Memory := []

/-- R67: cell `k` onwards filled with the Words of a sequence, in order. -/
def Memory.ofWordsFrom : Nat → List Word → Memory
  | _, [] => []
  | k, w :: t => Memory.put k w (Memory.ofWordsFrom (k + 1) t)

/-- R67: the array whose cell `k` is element `k` of the sequence. -/
def Memory.ofWords (ws : List Word) : Memory :=
  Memory.ofWordsFrom 0 ws

/-- The canonical form of an array of `n` cells of `m` bits: cells strictly rising, each below `n` (R14), none
listed as Undefined, each a Word of the width (R10). -/
abbrev Memory.wf (n m : Nat) (mem : Memory) : Prop :=
  mem.Pairwise (fun c d => c.1 < d.1) ∧ ∀ c ∈ mem, c.1 < n ∧ c.2 ≠ unlistedWord ∧ c.2.fits m = true

/-- The content of cell `k` of the block's array. -/
def State.cell (s : State) (k : Nat) : Word :=
  Memory.get s.mem k

/-- R14: the array as the sequence of its `N` Words, cell 0 first. -/
def State.cells (s : State) : List Word :=
  (List.range s.depth).map s.cell

/-- R69, R70: the read port. A valid address gives the cell, an invalid one Undefined; the array is not changed. -/
def memRead (s : State) (a : Address) : Word :=
  match resolve s.depth a with
  | some z => s.cell z
  | none => .undef

/-- R9, D8: the answer this spec fixes for a write through an invalid address (log entry 8). -/
def writeInvalidPolicy : WritePolicy := .poisonAll

/-- R71, R72: the write port under a given answer for an invalid address. -/
def memWriteUnder (pol : WritePolicy) (s : State) (a : Address) (d : Word) : State :=
  match resolve s.depth a, pol with
  | some z, _ => s.setMem (Memory.set s.mem z d)
  | none, .poisonAll => s.setMem Memory.poison
  | none, .noop => s

/-- R71, R72: the write port. A valid address replaces one whole cell, an invalid one poisons the array. -/
def memWrite (s : State) (a : Address) (d : Word) : State :=
  memWriteUnder writeInvalidPolicy s a d

/-- R75: the register's value goes out as this cycle's CycleOutput, and the raw output takes its place. -/
def latchOutput (raw : Word) (s : State) : State :=
  (s.setEmitted (s.emitted ++ [s.q])).setQ raw

/-- R43: what the output pins show during a cycle, the content of the register. -/
def State.qPins (s : State) : List Level :=
  s.q.levels s.width

/-- R96: a construction error aborts construction and is reported; no block exists afterwards, nothing is saved and
no handler is entered, so there is no return from it (R97, R103). -/
def abortConstruction (e : Fault) : Host.Outcome State Fault Refusal :=
  .fault e

end Sys2Proof.Machine
end

