-- ==== Sys2Proof/Machine/MemoryFileLoader.lean ====
section
/-! DEFINITION. The family MemoryFileLoader: from the text of the initial-contents file to a sequence of Words
(R51 to R63). -/

namespace Sys2Proof.Machine

/-- R52: the text cut at every line feed (U+000A); a final line feed starts no further line, and a carriage return is
an ordinary character. -/
def lines : List Char → List (List Char)
  | [] => []
  | c :: t =>
    if c = '\n' then [] :: lines t
    else
      match lines t with
      | [] => [[c]]
      | l :: ls => (c :: l) :: ls

/-- R53: the digit characters are U+0030 and U+0031 and no others. -/
def isDigit01 (c : Char) : Bool :=
  c == '0' || c == '1'

/-- R54: the longest prefix of a line made only of the characters `0` and `1`. -/
def leadingRun (s : List Char) : List Char :=
  s.takeWhile isDigit01

/-- The value of a digit character (R53). -/
def digit01 (c : Char) : Nat :=
  if c = '1' then 1 else 0

/-- R58: the number that a run of digits continues from `acc`, most significant digit first. -/
def binFrom : Nat → List Char → Nat
  | acc, [] => acc
  | acc, c :: t => binFrom (2 * acc + digit01 c) t

/-- R58: the base-2 reading of a run, of any length. -/
def bin (p : List Char) : Nat :=
  binFrom 0 p

/-- R54 to R60: the Word of width `m` that a line loads, or the line itself as the payload of a ParseError. -/
def parseLine (s : List Char) (m : Nat) : Except Fault Word :=
  let p := leadingRun s
  if p = [] then .error (.parseError s) else .ok (.defined (bin p % 2 ^ m))

/-- R51, R99: the Words of a sequence of lines, in order; the first line that fails gives the error. -/
def loadLines (m : Nat) : List (List Char) → Except Fault (List Word)
  | [] => .ok []
  | l :: ls =>
    match parseLine l m with
    | .error e => .error e
    | .ok w =>
      match loadLines m ls with
      | .error e => .error e
      | .ok ws => .ok (w :: ws)

/-- R51: LOAD. It is not given the depth and neither pads nor truncates (R63). -/
def load (text : List Char) (m : Nat) : Except Fault (List Word) :=
  loadLines m (lines text)

end Sys2Proof.Machine
end

