-- ==== Sys2Proof/Machine/SynchronousMemoryArray.lean ====
section
/-! DEFINITION. The family SynchronousMemoryArray: CONSTRUCT (R67), the operations RD and RDWR (R77, R78), and the
end of a run (R117). -/

namespace Sys2Proof.Machine

/-- R67, R95: CONSTRUCT, the array of depth `n` from a sequence of Words; a sequence of another length is an error. -/
def constructArray (n : Nat) (ws : List Word) : Except Fault Memory :=
  if ws.length = n then .ok (Memory.ofWords ws) else .error (.depthMismatch n ws.length)

/-- R107, R99: construction of this instance. LOAD runs to completion before CONSTRUCT compares lengths. -/
def constructBlock (p : Params) (s : State) : Host.Outcome State Fault Refusal :=
  match s.phase with
  | .unbuilt =>
    if p.wf then
      match load p.initText p.width with
      | .error e => abortConstruction e
      | .ok ws =>
        match constructArray p.depth ws with
        | .error e => abortConstruction e
        | .ok m => .next (s.install p m)
    else .refused .zeroDepth
  | .running => .refused .alreadyConstructed
  | .ended => .refused .alreadyConstructed

/-- R20, R117: the host ends the run, and the array and the register are discarded. -/
def endRun (s : State) : Host.Outcome State Fault Refusal :=
  match s.phase with
  | .running => .next s.discard
  | .unbuilt => .refused .noBlock
  | .ended => .refused .noBlock

/-- R77: RD. The read result goes to the register, the register's old value is emitted, the array is unchanged. -/
def execRd (r : Address) (s : State) : Host.Outcome State Fault Refusal :=
  .next (latchOutput (memRead s r) s)

/-- R78: RDWR. The read sees the array before the write (R30), then the write is applied. -/
def execRdwr (r w : Address) (d : Word) (s : State) : Host.Outcome State Fault Refusal :=
  .next (latchOutput (memRead s r) (memWrite s w d))

end Sys2Proof.Machine
end

