-- ==== Sys2Proof/Machine/Dispatch.lean ====
section
/-! DEFINITION. One arm per operation of the block (R38). -/

namespace Sys2Proof.Machine

/-- R76, R81: the per-cycle update, selected by the operation. It answers a next state from every state; that a block
exists and that the data has its width is checked by `step` (log entry 7). -/
def exec (i : Instr) (s : State) : Host.Outcome State Fault Refusal :=
  match i with
  | .rd r => Sys2Proof.Machine.execRd r s
  | .rdwr r w d => Sys2Proof.Machine.execRdwr r w d s

end Sys2Proof.Machine
end

