-- ==== Sys2Proof/Machine/Fetch.lean ====
section
/-! DEFINITION. From what the host presents in a cycle to the operation of that cycle (R36, R38, R41, R44). -/

namespace Sys2Proof.Machine

/-- The operation that a form of one cycle's input selects in a block of depth `n` and width `m`: the tuple by R38,
the command word by R44, the pins by R42 and R43. -/
def selectOperation (n m : Nat) : Stimulus → Except Refusal Instr
  | .tuple c => .ok c.select
  | .word w =>
    match decodeCmd n m w with
    | .ok i => .ok i
    | .error e => .error (.undecodable e)
  | .pins p =>
    match p.sample n m with
    | .ok c => .ok c.select
    | .error e => .error (.badPins e)

/-- The operation the block performs in a cycle. It needs a constructed block (R96, R107) and data that is a Word of
the block's width (R36). -/
def fetchOperation (s : State) (x : Stimulus) : Except Refusal Instr :=
  match s.phase with
  | .unbuilt => .error .noBlock
  | .ended => .error .noBlock
  | .running =>
    match selectOperation s.depth s.width x with
    | .error r => .error r
    | .ok i => if i.wf s.width then .ok i else .error .outsideDomain

/-- The contents the table's block is constructed with: the file `001`, `010`, `011` of the source's scenario
(vector S2 of 95_test_vectors.md). -/
def tableMemory : Memory :=
  Memory.ofWords [.defined 1, .defined 2, .defined 3]

/-- `s` as a running block in which a table word of `nbits` bits means what `decodeTableWord` says: unchanged where
it is one already, else given the parameters of the worked example of R44 and freshly constructed contents (DESIGN
CHOICE, log entry 9). -/
def State.asTableBlock (s : State) (nbits : Nat) : State :=
  if s.phase = .running ∧ s.depth = tableDepth ∧ s.width = tableWidth nbits then s
  else { s with phase := .running, depth := tableDepth, width := tableWidth nbits, mem := tableMemory, q := .undef }

end Sys2Proof.Machine
end

