-- ==== Sys2Proof/Machine/Step.lean ====
section
/-! DEFINITION. One step of the machine: the next thing the host presents, taken by the block as one atomic
transition (R29), and where a test places its next operation. -/

namespace Sys2Proof.Machine

/-- R82, R107, R117: the block takes the first of the host's events and consumes it: construction, one cycle
(R76), or the end of the run. -/
def step (s : State) : Host.Outcome State Fault Refusal :=
  match s.events with
  | [] => .refused .noHostEvent
  | .construct p :: rest => constructBlock p (s.setEvents rest)
  | .finish :: rest => endRun (s.setEvents rest)
  | .cycle x :: rest =>
    match fetchOperation s x with
    | .error r => .refused r
    | .ok i => exec i (s.setEvents rest)

/-- The command word `w` presented as the input of the next cycle of a running block. -/
def State.withFetchWord (s : State) (nbits w : Nat) : State :=
  (s.asTableBlock nbits).setEvents (.cycle (.word w) :: s.events)

end Sys2Proof.Machine
end

