-- ==== Sys2Proof/Machine/Reference.lean ====
section
/-! DEFINITION. The spec's own pseudocode for the step function (R76) and the run (R82), over the array as a plain
sequence of Words, for statements that compare the machine with it. No other definition of the machine uses it. -/

namespace Sys2Proof.Machine

/-- R17: the whole state of the block, the array as its `N` Words and the output register. -/
structure Block where
  mem : List Word
  q : Word
  deriving DecidableEq, Repr

/-- R76: `raw`, the read result of a cycle, from the array at the start of the cycle. -/
def Block.raw (n : Nat) (b : Block) : Address → Word
  | .undef => .undef
  | .int z => if 0 ≤ z ∧ z < n then (b.mem[z.toNat]?).getD .undef else .undef

/-- R76: `mem'`, the array after a cycle. -/
def Block.memAfter (n : Nat) (b : Block) (c : CycleInput) : List Word :=
  match c.writeEnable, c.writeAddr with
  | false, _ => b.mem
  | true, .undef => List.replicate n .undef
  | true, .int z => if 0 ≤ z ∧ z < n then b.mem.set z.toNat c.writeData else List.replicate n .undef

/-- R76: the step function, from a state and a CycleInput to a state and a CycleOutput. -/
def Block.step (n : Nat) (b : Block) (c : CycleInput) : Block × Word :=
  (⟨b.memAfter n c, b.raw n c.readAddr⟩, b.q)

/-- R82: the outputs of a run from a given state, one per input. -/
def Block.outputs (n : Nat) : Block → List CycleInput → List Word
  | _, [] => []
  | b, c :: cs => (b.step n c).2 :: Block.outputs n (b.step n c).1 cs

/-- R82, R96: a whole run from the construction parameters, or the construction error in place of the outputs. -/
def wholeRun (p : Params) (cs : List CycleInput) : Except Fault (List Word) :=
  match load p.initText p.width with
  | .error e => .error e
  | .ok ws =>
    if ws.length = p.depth then .ok (Block.outputs p.depth ⟨ws, .undef⟩ cs)
    else .error (.depthMismatch p.depth ws.length)

end Sys2Proof.Machine
end

