-- ==== Sys2Proof/Safety.lean ====
section
/-! DEFINITION. The terms claims are stated in: the invariant of a block instance, and an input stream placed before
the block. -/

namespace Sys2Proof.Machine

/-- What holds of every state a block instance can be in.
The array is canonical and within its depth and width (R10, R14), the register and the outputs are Words of the width
(R10), a running block has a positive depth (R5), and there is no array content and no register content outside a run
(R20, R96). -/
structure State.Inv (s : State) : Prop where
  array : Memory.wf s.depth s.width s.mem
  register : s.q.fits s.width = true
  outputs : ∀ w ∈ s.emitted, w.fits s.width = true
  depth_pos : s.phase = .running → 1 ≤ s.depth
  no_block : s.phase ≠ .running → s.mem = [] ∧ s.q = .undef
  fresh : s.phase = .unbuilt → s.depth = 0 ∧ s.width = 0 ∧ s.emitted = []

/-- `s` with an input stream presented before whatever the host has presented already, cycle 0 first (R82). -/
def State.feed (s : State) (cs : List CycleInput) : State :=
  s.setEvents (cs.map (fun c => Event.cycle (.tuple c)) ++ s.events)

/-- R82: from `s`, the block consumes the input stream `cs` and is then in the state `t`. -/
def Consumes (s : State) (cs : List CycleInput) (t : State) : Prop :=
  Host.Core.run Sys2Proof.core cs.length (s.feed cs) = .next t

/-- R36: every input of a stream is admitted by a block of width `m`. -/
abbrev Admitted (m : Nat) (cs : List CycleInput) : Prop :=
  ∀ c ∈ cs, c.wf m = true

/-- R91: the input of a cycle writes cell `z` of an array of `n` cells, or poisons the array. -/
abbrev cycleHits (n z : Nat) (c : CycleInput) : Prop :=
  c.writeEnable = true ∧ (c.writeAddr = .int z ∨ resolve n c.writeAddr = none)

end Sys2Proof.Machine
end

