-- ==== Sys2Proof/Certificates/Slice0/Obligations.lean ====
section
/-! DEFINITION. The statements for the provers. A statement that concludes `undef` says what the model's marker is,
not what a chip drives (D24). -/

open Sys2Proof Sys2Proof.Machine

/-! ## Encodings -/

/-- R44 (derived): for every depth and width, every RD and RDWR whose fields are defined and fit their ports has a
command word, and that word decodes to the same operation with the same operands. -/
def Obligations.DecodeOfEncodeIsIdentity : Prop :=
  ∀ n m : Nat,
    (∀ ra : Nat, ra < 2 ^ addrWidth n → ∃ w : Nat, w < 2 ^ cmdWidth n m ∧
      encodeCmd n m (.rd (.int ra)) = some w ∧ decodeCmd n m w = .ok (.rd (.int ra))) ∧
    (∀ ra wa d : Nat, ra < 2 ^ addrWidth n → wa < 2 ^ addrWidth n → d < 2 ^ m → ∃ w : Nat, w < 2 ^ cmdWidth n m ∧
      encodeCmd n m (.rdwr (.int ra) (.int wa) (.defined d)) = some w ∧
      decodeCmd n m w = .ok (.rdwr (.int ra) (.int wa) (.defined d)))

/-- R44: where each field of a fully defined CycleInput stands in the packed command word, the word's formula, the
canonical form of RD, and the CycleInputs that have no packed form. -/
def Obligations.CommandWordLayout : Prop :=
  ∀ n m : Nat,
    (∀ (we : Bool) (ra wa wd : Nat), ra < 2 ^ addrWidth n → wa < 2 ^ addrWidth n → wd < 2 ^ m → ∃ w : Nat,
      packCycle n m ⟨.int ra, we, .int wa, .defined wd⟩ = some w ∧
      w = we.toNat + 2 * ra + 2 ^ (addrWidth n + 1) * wa + 2 ^ (2 * addrWidth n + 1) * wd ∧
      w < 2 ^ (1 + 2 * addrWidth n + m) ∧
      w.testBit 0 = we ∧
      (∀ k < addrWidth n, w.testBit (k + 1) = ra.testBit k) ∧
      (∀ k < addrWidth n, w.testBit (k + (addrWidth n + 1)) = wa.testBit k) ∧
      (∀ k < m, w.testBit (k + (2 * addrWidth n + 1)) = wd.testBit k)) ∧
    (∀ ra : Nat, ra < 2 ^ addrWidth n → encodeCmd n m (.rd (.int ra)) = some (2 * ra)) ∧
    (∀ c : CycleInput, c.readAddr = .undef ∨ c.writeAddr = .undef ∨ c.writeData = .undef → packCycle n m c = none) ∧
    (∀ (c : CycleInput) (z : Int), z < 0 ∨ 2 ^ addrWidth n ≤ z → c.readAddr = .int z ∨ c.writeAddr = .int z →
      packCycle n m c = none)

/-- R44, R39, R40 (derived): every number of at most `CW` bits decodes to a well-formed operation, whose encoding gives
the number back (for RD the canonical number, its unused fields zero); every wider number is rejected by name, which is
the model's choice (log entry 9). -/
def Obligations.EveryCommandWordDecodes : Prop :=
  ∀ n m w : Nat,
    (w < 2 ^ cmdWidth n m → ∃ i, decodeCmd n m w = .ok i ∧ i.wf m = true ∧
      encodeCmd n m i = some (if w % 2 = 1 then w else w % 2 ^ (addrWidth n + 1))) ∧
    (2 ^ cmdWidth n m ≤ w → decodeCmd n m w = .error .commandTooWide)

/-- R44 and vectors of 95_test_vectors.md (derived): command words the spec writes out decode to the operations it
gives for them. -/
def Obligations.SpecCommandWordsDecode : Prop :=
  decodeCmd 3 3 0xF3 = .ok (.rdwr (.int 1) (.int 2) (.defined 7)) ∧
  decodeCmd 3 3 0x04 = .ok (.rd (.int 2)) ∧
  decodeCmd 4 4 0x1F3 = .ok (.rdwr (.int 1) (.int 2) (.defined 15)) ∧
  decodeCmd 4 8 0x154B = .ok (.rdwr (.int 1) (.int 1) (.defined 0xAA))

/-- R42: the width of an address port, the number a known pattern denotes, which patterns are addresses outside the
array (those from `N` upwards), and when a port can carry one. -/
def Obligations.AddressPortCarriesUnsigned : Prop :=
  ∀ n : Nat, 1 ≤ n →
    addrWidth n = max 1 (Nat.clog 2 n) ∧
    (∀ b : Nat, b < 2 ^ addrWidth n → addressOfLevels (levelsOf (addrWidth n) b) = .int b) ∧
    (∀ ls : List Level, ls.length = addrWidth n → Level.unknown ∉ ls →
      ∃ b : Nat, b < 2 ^ addrWidth n ∧ ls = levelsOf (addrWidth n) b ∧ addressOfLevels ls = .int b) ∧
    (∀ b : Nat, b < 2 ^ addrWidth n →
      (resolve n (addressOfLevels (levelsOf (addrWidth n) b)) = none ↔ n ≤ b)) ∧
    ((∃ ls : List Level, ls.length = addrWidth n ∧ Level.unknown ∉ ls ∧ resolve n (addressOfLevels ls) = none) ↔
      n < 2 ^ addrWidth n)

/-- R43: the pattern of a defined word on a port and its reading back, what Undefined looks like on the output pins,
that one unknown bit makes a word or an address Undefined, and that `we` carries writeEnable, `1` for true, while pins
with an unknown `we` stand for no CycleInput. -/
def Obligations.PortPatternsOfWords : Prop :=
  (∀ m v : Nat, v < 2 ^ m →
    ((Word.defined v).levels m).length = m ∧
    (∀ k < m, ((Word.defined v).levels m)[k]? = some (if v.testBit k then Level.one else Level.zero)) ∧
    wordOfLevels ((Word.defined v).levels m) = .defined v) ∧
  (∀ m, Word.undef.levels m = List.replicate m .unknown) ∧
  (∀ ls : List Level, Level.unknown ∈ ls → wordOfLevels ls = .undef ∧ addressOfLevels ls = .undef) ∧
  (∀ (n m : Nat) (p : Pins) (c : CycleInput), p.sample n m = .ok c →
    p.we = if c.writeEnable then Level.one else Level.zero) ∧
  (∀ (n m : Nat) (p : Pins), p.we = .unknown → ∀ c, p.sample n m ≠ .ok c)

/-- R38, R41 (derived): pins of the port widths with a known write enable run as the CycleInput they carry. -/
def Obligations.PinsRunAsTheirTuple : Prop :=
  ∀ (s : State) (p : Pins) (rest : List Event) (b : Bool), s.phase = .running →
    s.events = .cycle (.pins p) :: rest →
    p.rdAddr.length = addrWidth s.depth → p.wrAddr.length = addrWidth s.depth → p.wrData.length = s.width →
    p.we = levelOf b →
    ∃ t, step s = .next t ∧
      step (s.setEvents (.cycle (.tuple ⟨addressOfLevels p.rdAddr, b, addressOfLevels p.wrAddr,
        wordOfLevels p.wrData⟩) :: rest)) = .next t

/-- R50: the one CycleInput that WR, XCHG and NOP each expand to, which is that of an RDWR or an RD; address 0 is valid
whatever the depth; and a running block given the expansion of any written line performs the RD or RDWR it selects. -/
def Obligations.PseudoOperationsExpand : Prop :=
  (∀ w d, (Line.wr w d).expand = ⟨.int 0, true, w, d⟩ ∧ (Line.wr w d).expand = (Line.rdwr (.int 0) w d).expand) ∧
  (∀ a d, (Line.xchg a d).expand = ⟨a, true, a, d⟩ ∧ (Line.xchg a d).expand = (Line.rdwr a a d).expand) ∧
  (Line.nop.expand.readAddr = .int 0 ∧ Line.nop.expand.writeEnable = false ∧
    Line.nop.expand = (Line.rd (.int 0)).expand) ∧
  (∀ n, 1 ≤ n → resolve n (.int 0) = some 0) ∧
  (∀ (l : Line) (s : State), s.phase = .running → l.expand.wf s.width = true →
    ∃ i t, l.expand = i.toTuple ∧ step (s.feed [l.expand]) = exec i s ∧ exec i s = .next t)

/-! ## The loader -/

/-- R52: lines each ended by a line feed are cut apart again, a non-empty rest after the last line feed is a further
line, and every text is one of these two. -/
def Obligations.LinesCutAtLineFeeds : Prop :=
  (∀ ls : List (List Char), (∀ l ∈ ls, '\n' ∉ l) → lines (ls.flatMap (· ++ ['\n'])) = ls) ∧
  (∀ (ls : List (List Char)) (last : List Char), (∀ l ∈ ls, '\n' ∉ l) → '\n' ∉ last → last ≠ [] →
    lines (ls.flatMap (· ++ ['\n']) ++ last) = ls ++ [last]) ∧
  (∀ t : List Char, (∀ l ∈ lines t, '\n' ∉ l) ∧
    ((lines t).flatMap (· ++ ['\n']) = t ∨
      (lines t).flatMap (· ++ ['\n']) = t ++ ['\n'] ∧ ∃ c, t.getLast? = some c ∧ c ≠ '\n'))

/-- R58: the value of a run of digits is the sum of its digits at their places, the leftmost most significant, for a
run of any length; the character `1` is worth one and `0` nothing, and leading zeros contribute nothing. -/
def Obligations.RunReadsMostSignificantFirst : Prop :=
  (∀ p : List Char, bin p = ∑ k : Fin p.length, (if p[k] = '1' then 1 else 0) * 2 ^ (p.length - 1 - k)) ∧
  (∀ (z : Nat) (p : List Char), bin (List.replicate z '0' ++ p) = bin p)

/-- R54, R55, R57: parseLine uses the longest prefix of digits and nothing else; it succeeds exactly when the line's
first character exists and is a digit, and else fails with the whole line. -/
def Obligations.ParseLineUsesLeadingRun : Prop :=
  ∀ (s : List Char) (m : Nat),
    (∃ rest, s = leadingRun s ++ rest ∧ (∀ c ∈ leadingRun s, c = '0' ∨ c = '1') ∧
      (∀ c, rest.head? = some c → c ≠ '0' ∧ c ≠ '1')) ∧
    ((∃ c, s.head? = some c ∧ (c = '0' ∨ c = '1')) →
      leadingRun s ≠ [] ∧ parseLine s m = .ok (.defined (bin (leadingRun s) % 2 ^ m))) ∧
    (¬ (∃ c, s.head? = some c ∧ (c = '0' ∨ c = '1')) → parseLine s m = .error (.parseError s))

/-- R56: whatever follows the leading run is ignored, digits after the first other character included; nothing before
a run is skipped, white space or other. -/
def Obligations.TrailingContentIgnored : Prop :=
  ∀ (p t : List Char) (x : Char) (m : Nat), p ≠ [] → (∀ c ∈ p, c = '0' ∨ c = '1') → x ≠ '0' → x ≠ '1' →
    parseLine (p ++ x :: t) m = parseLine p m ∧ parseLine p m = .ok (.defined (bin p % 2 ^ m)) ∧
    parseLine (x :: p) m = .error (.parseError (x :: p))

/-- R59, R60: a run of at most `M` digits loads its own value; a longer run loads the value of its last `M` digits,
which is the value modulo `2 ^ M`, and is not an error; with `M = 0` every run loads zero. -/
def Obligations.RunFittedToWidth : Prop :=
  ∀ (p : List Char) (m : Nat), p ≠ [] → (∀ c ∈ p, c = '0' ∨ c = '1') →
    parseLine p m = .ok (.defined (bin p % 2 ^ m)) ∧
    (p.length ≤ m → parseLine p m = .ok (.defined (bin p))) ∧
    (m < p.length → parseLine p m = .ok (.defined (bin (p.drop (p.length - m))))) ∧
    (m = 0 → parseLine p m = .ok (.defined 0))

/-- R51: LOAD gives one Word per line in file order, or the error of the first line in file order that fails. -/
def Obligations.LoadGivesWordPerLine : Prop :=
  ∀ (text : List Char) (m : Nat),
    (∀ ws, load text m = .ok ws ↔ List.Forall₂ (fun l w => parseLine l m = .ok w) (lines text) ws) ∧
    (∀ e, load text m = .error e ↔ ∃ before l after, lines text = before ++ l :: after ∧
      (∀ x ∈ before, ∃ w, parseLine x m = .ok w) ∧ parseLine l m = .error e)

/-- R62: every Word that LOAD returns is defined (and is a Word of the width), so every cell of the array is defined
at the start of cycle 0. -/
def Obligations.LoadedWordsAreDefined : Prop :=
  ∀ (text : List Char) (m : Nat) (ws : List Word), load text m = .ok ws →
    (ws.length = (lines text).length ∧ ∀ w ∈ ws, w ≠ .undef ∧ w.fits m = true) ∧
    ∀ (s : State) (p : Params) (rest : List Event), s.phase = .unbuilt → s.events = .construct p :: rest →
      1 ≤ p.depth → p.initText = text → p.width = m → ws.length = p.depth →
      ∃ t, step s = .next t ∧ ∀ z < p.depth, t.cell z ≠ .undef

/-- R66: a text of `N` lines, each of exactly `M` binary digits, loads `N` words that are the lines' values, whether or
not it ends in a line feed. The width is at least one, as the construction contract has it (R6): a line of no digits is
a parse error. -/
def Obligations.ExactFileLoadsItsValues : Prop :=
  ∀ (text : List Char) (n m : Nat), 1 ≤ m → (lines text).length = n →
    (∀ l ∈ lines text, l.length = m ∧ ∀ c ∈ l, c = '0' ∨ c = '1') →
    ∃ ws, load text m = .ok ws ∧ ws.length = n ∧ ws = (lines text).map (fun l => .defined (bin l)) ∧
      ∀ l ∈ lines text, bin l < 2 ^ m

/-! ## Construction and the end of a run -/

/-- R67, R95: a file of another number of lines than the depth is a DepthMismatch with both numbers; else cell `k` is
the word of line `k` and the register is Undefined. -/
def Obligations.ConstructionFillsTheArray : Prop :=
  ∀ (s : State) (p : Params) (rest : List Event) (ws : List Word), s.phase = .unbuilt →
    s.events = .construct p :: rest → 1 ≤ p.depth → load p.initText p.width = .ok ws →
    (ws.length ≠ p.depth → step s = .fault (.depthMismatch p.depth ws.length)) ∧
    (ws.length = p.depth → ∃ t, step s = .next t ∧ t.phase = .running ∧ t.cells = ws ∧ t.q = .undef ∧
      t.depth = p.depth ∧ t.width = p.width ∧ t.domain = p.domain ∧ t.events = rest ∧ t.emitted = s.emitted)

/-- R94, R99: the first malformed line in file order aborts construction with that line, whatever the number of
lines. -/
def Obligations.ParseErrorAbortsConstruction : Prop :=
  ∀ (s : State) (p : Params) (rest : List Event) (before after : List (List Char)) (l : List Char),
    s.phase = .unbuilt → s.events = .construct p :: rest → 1 ≤ p.depth →
    lines p.initText = before ++ l :: after →
    (∀ x ∈ before, leadingRun x ≠ []) → leadingRun l = [] →
    step s = .fault (.parseError l)

/-- R65, R96, R109, D15 (derived): construction happens once per instance, never with depth zero, and no cycle runs on
an instance that is not running. The refusals' names are the model's own (log entry 5). -/
def Obligations.NothingRunsWithoutABlock : Prop :=
  ∀ (s : State) (p : Params) (x : Stimulus) (rest : List Event),
    (s.phase ≠ .running → s.events = .cycle x :: rest ∨ s.events = .finish :: rest → step s = .refused .noBlock) ∧
    (s.phase ≠ .unbuilt → s.events = .construct p :: rest → step s = .refused .alreadyConstructed) ∧
    (s.phase = .unbuilt → s.events = .construct p :: rest → p.depth = 0 → step s = .refused .zeroDepth)

/-- R20, R117 (derived): ending a run discards the array and the register, whatever they held, emits nothing, and
leaves the emitted outputs; what follows is refused. The end as a step of its own is the model's choice (log
entry 3). -/
def Obligations.EndOfRunDiscardsTheBlock : Prop :=
  ∀ (s : State) (rest : List Event), s.phase = .running → s.events = .finish :: rest →
    ∃ t, step s = .next t ∧ t.phase = .ended ∧ t.mem = [] ∧ t.q = .undef ∧ t.emitted = s.emitted ∧
      ∀ e es, ∃ r, step (t.setEvents (e :: es)) = .refused r

/-- R16, R107, R109 (derived): the reset state is an instance before its construction, and the block constructed from
it first has the words of the file in its array and Undefined in its register. That reset comes before construction
is the model's choice (log entry 1). -/
def Obligations.ResetPrecedesConstruction : Prop :=
  State.reset.phase = .unbuilt ∧ State.reset.mem = [] ∧ State.reset.q = .undef ∧ State.reset.emitted = [] ∧
  step State.reset = .refused .noHostEvent ∧
  ∀ (p : Params) (ws : List Word), 1 ≤ p.depth → load p.initText p.width = .ok ws → ws.length = p.depth →
    ∃ t, step (State.reset.setEvents [.construct p]) = .next t ∧ t.cells = ws ∧ t.q = .undef ∧ Word.undef ∉ t.cells

/-! ## One cycle -/

/-- R38, R40 (derived): when what the host presents selects a well-formed operation, a step of a running block is exec
of it, on the state with that input consumed. -/
def Obligations.StepRunsTheSelectedOperation : Prop :=
  ∀ (s : State) (rest : List Event), s.phase = .running →
    (∀ x i, s.events = .cycle x :: rest → selectOperation s.depth s.width x = .ok i → i.wf s.width = true →
      step s = exec i (s.setEvents rest)) ∧
    (∀ c : CycleInput, s.events = .cycle (.tuple c) :: rest → c.wf s.width = true →
      step s = exec (if c.writeEnable then .rdwr c.readAddr c.writeAddr c.writeData else .rd c.readAddr)
        (s.setEvents rest)) ∧
    (∀ w i, s.events = .cycle (.word w) :: rest → decodeCmd s.depth s.width w = .ok i →
      step s = exec i (s.setEvents rest))

/-- R39: with write enable false the next state and the output do not depend on the two write fields, whatever they
hold. -/
def Obligations.UnusedWriteFieldsAreIgnored : Prop :=
  ∀ (s : State) (ra wa wa' : Address) (wd wd' : Word), s.phase = .running →
    ∃ t, step (s.feed [⟨ra, false, wa, wd⟩]) = .next t ∧ step (s.feed [⟨ra, false, wa', wd'⟩]) = .next t

/-- R40, R81: no CycleInput of the domain stops a running block. -/
def Obligations.NoCycleInputStopsTheBlock : Prop :=
  (∀ (i : Instr) (s : State), ∃ t, exec i s = .next t) ∧
  (∀ (s : State) (c : CycleInput), s.phase = .running → c.wf s.width = true →
    ∃ t, step (s.feed [c]) = .next t ∧ t.phase = .running)

/-- R77: RD, for every read address, and for every content of the two fields it ignores. -/
def Obligations.RdReadsIntoTheRegister : Prop :=
  ∀ (r : Address) (s : State), ∃ t, exec (.rd r) s = .next t ∧
    t.emitted = s.emitted ++ [s.q] ∧
    (∀ z : Nat, r = .int z → z < s.depth → t.q = s.cell z) ∧
    ((¬ ∃ z : Nat, r = .int z ∧ z < s.depth) → t.q = .undef) ∧
    t.mem = s.mem ∧
    ∀ wa wd, (⟨r, false, wa, wd⟩ : CycleInput).select = .rd r

/-- R78: RDWR, for every operand: the output, the register from the array before the write, and every cell after. -/
def Obligations.RdwrReadsThenWrites : Prop :=
  ∀ (r w : Address) (d : Word) (s : State), Memory.wf s.depth s.width s.mem →
    ∃ t, exec (.rdwr r w d) s = .next t ∧
      t.emitted = s.emitted ++ [s.q] ∧
      (∀ z : Nat, r = .int z → z < s.depth → t.q = s.cell z) ∧
      ((¬ ∃ z : Nat, r = .int z ∧ z < s.depth) → t.q = .undef) ∧
      (∀ y : Nat, w = .int y → y < s.depth → t.cell y = d ∧ ∀ k, k ≠ y → t.cell k = s.cell k) ∧
      ((¬ ∃ y : Nat, w = .int y ∧ y < s.depth) → ∀ k < s.depth, t.cell k = .undef)

/-- R69, R70: the read result of a cycle, for both operations: Undefined for an address that is Undefined, negative or
at least `N`, else the cell's content before the write; the read itself changes no cell. -/
def Obligations.ReadResultByAddress : Prop :=
  ∀ (i : Instr) (s : State),
    ∃ t, exec i s = .next t ∧
      (i.toTuple.readAddr = .undef → t.q = .undef) ∧
      (∀ z : Int, i.toTuple.readAddr = .int z → z < 0 ∨ (s.depth : Int) ≤ z → t.q = .undef) ∧
      (∀ z : Int, i.toTuple.readAddr = .int z → 0 ≤ z → z < s.depth → t.q = s.cell z.toNat) ∧
      (i.toTuple.writeEnable = false → t.mem = s.mem) ∧
      (∀ (r' : Address) (u : State), exec (match i with | .rd _ => .rd r' | .rdwr _ w d => .rdwr r' w d) s = .next u →
        u.mem = t.mem)

/-- R28: a read has no side effect on the array and is idempotent; a read through an invalid address never fails and
yields Undefined. The only state a read changes is the register (and what has been emitted). -/
def Obligations.ReadsLeaveTheArrayAlone : Prop :=
  ∀ (r : Address) (s : State), ∃ t u, exec (.rd r) s = .next t ∧ exec (.rd r) t = .next u ∧
    t = { s with q := t.q, emitted := s.emitted ++ [s.q] } ∧ u.q = t.q ∧ u.mem = s.mem ∧
    (resolve s.depth r = none → t.q = .undef)

/-- R71, R73: with write enable true and a valid address exactly that cell is replaced, whatever the read touched;
with write enable false no cell changes. -/
def Obligations.ValidWriteReplacesOneCell : Prop :=
  (∀ (r : Address) (z : Nat) (d : Word) (s : State), Memory.wf s.depth s.width s.mem → z < s.depth →
    ∃ t, exec (.rdwr r (.int z) d) s = .next t ∧ t.cells = s.cells.set z d) ∧
  (∀ (c : CycleInput) (s : State), s.phase = .running → c.writeEnable = false →
    ∃ t, step (s.feed [c]) = .next t ∧ t.mem = s.mem ∧ t.cells = s.cells)

/-- R72: with write enable true and an invalid address every cell is Undefined afterwards, whatever the data; the
array keeps its length, nothing is raised and the read of the same cycle is unaffected. -/
def Obligations.InvalidWritePoisonsTheArray : Prop :=
  ∀ (r w : Address) (d : Word) (s : State),
    (w = .undef ∨ ∃ z : Int, w = .int z ∧ (z < 0 ∨ (s.depth : Int) ≤ z)) →
    ∃ t u, exec (.rdwr r w d) s = .next t ∧ exec (.rd r) s = .next u ∧ t.q = u.q ∧
      t.cells = List.replicate s.depth .undef ∧ t.depth = s.depth

/-- R74, R75: the read result goes into the register and is not emitted; the value emitted is what the register held;
the write of the same cycle has no influence on either; the register is written in every cycle, and the first cycle
after construction emits Undefined. -/
def Obligations.OutputIsThePreviousReadResult : Prop :=
  ∀ (r w : Address) (d : Word) (s : State), ∃ t u,
    exec (.rd r) s = .next t ∧ exec (.rdwr r w d) s = .next u ∧
    t.emitted = s.emitted ++ [s.q] ∧ u.emitted = s.emitted ++ [s.q] ∧
    t.q = memRead s r ∧ u.q = memRead s r ∧
    (∀ (c : CycleInput) (v : State), s.phase = .running → step (s.feed [c]) = .next v →
      v.emitted = s.emitted ++ [s.q] ∧ v.q = memRead s c.readAddr) ∧
    ∀ (p : Params) (c : CycleInput) (t₀ v : State), step (State.reset.setEvents [.construct p]) = .next t₀ →
      step (t₀.feed [c]) = .next v → v.emitted = [.undef]

/-- R79: read and write of the same cell in one cycle: the read returns the content before the cycle, the cell holds
the new data after it, and the read of the next cycle is the first to see it; no write, to this or another address,
alters the read result of its own cycle. -/
def Obligations.SameCellReadReturnsOldContent : Prop :=
  ∀ (z : Nat) (d : Word) (s : State), Memory.wf s.depth s.width s.mem → z < s.depth →
    ∃ t u, exec (.rdwr (.int z) (.int z) d) s = .next t ∧ t.q = s.cell z ∧ t.cell z = d ∧
      exec (.rd (.int z)) t = .next u ∧ u.q = d ∧ u.emitted = s.emitted ++ [s.q, s.cell z] ∧
      ∀ w d', ∃ v, exec (.rdwr (.int z) w d') s = .next v ∧ v.q = s.cell z

/-- R80: Undefined data is stored like any other word, and a later write of a defined word makes exactly that cell
defined again, also after poisoning. -/
def Obligations.UndefinedDataIsStoredAndReplaced : Prop :=
  ∀ (r r' : Address) (z : Nat) (v : Nat) (s : State), Memory.wf s.depth s.width s.mem → z < s.depth →
    (∃ t u, exec (.rdwr r (.int z) .undef) s = .next t ∧ t.cell z = .undef ∧ (∀ k, k ≠ z → t.cell k = s.cell k) ∧
      exec (.rdwr r' (.int z) (.defined v)) t = .next u ∧ u.cell z = .defined v ∧
      ∀ k, k ≠ z → u.cell k = s.cell k) ∧
    (∃ t u, exec (.rdwr r .undef (.defined v)) s = .next t ∧
      exec (.rdwr r' (.int z) (.defined v)) t = .next u ∧ u.cell z = .defined v ∧
      ∀ k < s.depth, k ≠ z → u.cell k = .undef)

/-- R89: the read result of a cycle is that of the same cycle without its write, for every write address; and after a
write to a different valid address the next cycle's read of the read address still gives the old content. -/
def Obligations.DifferentAddressesDoNotDisturb : Prop :=
  ∀ (r w : Address) (d : Word) (s : State),
    ∃ t u, exec (.rd r) s = .next t ∧ exec (.rdwr r w d) s = .next u ∧ t.q = u.q ∧
      (∀ y : Nat, w = .int y → y < s.depth → r ≠ w → memRead u r = memRead s r)

/-- The frames of RD and RDWR (derived: R17, R19, R28, R71, R72). RD changes the register and the emitted outputs, and
nothing else; every cell reads as before. RDWR changes these two and, where the write address is that of a cell, this
one cell alone; where it is invalid, cells of the array alone. -/
def Obligations.FrameOfRdAndRdwr : Prop :=
  (∀ (r : Address) (s : State), ∃ t, exec (.rd r) s = .next t ∧
    (∀ k, t.cell k = s.cell k) ∧ t.phase = s.phase ∧ t.depth = s.depth ∧ t.width = s.width ∧ t.domain = s.domain ∧
    t.events = s.events ∧ t.emitted = s.emitted ++ [s.q]) ∧
  (∀ (r w : Address) (d : Word) (s : State), ∃ t, exec (.rdwr r w d) s = .next t ∧
    (∀ y, resolve s.depth w = some y → ∀ k, k ≠ y → t.cell k = s.cell k) ∧
    (∀ k, s.depth ≤ k → s.cell k = .undef → t.cell k = .undef) ∧
    t.phase = s.phase ∧ t.depth = s.depth ∧ t.width = s.width ∧ t.domain = s.domain ∧
    t.events = s.events ∧ t.emitted = s.emitted ++ [s.q])

/-- R76: one step of a running block is the spec's step function on the array of `N` words and the register. -/
def Obligations.CycleIsTheStepFunction : Prop :=
  ∀ (s : State) (c : CycleInput), s.Inv → s.phase = .running → c.wf s.width = true →
    ∃ t, step (s.feed [c]) = .next t ∧
      (⟨t.cells, t.q⟩, t.emitted.drop s.emitted.length) =
        (((Block.step s.depth ⟨s.cells, s.q⟩ c).1, [(Block.step s.depth ⟨s.cells, s.q⟩ c).2]) : Block × List Word) ∧
      t = { s with mem := t.mem, q := t.q, emitted := s.emitted ++ [s.q] }

/-! ## The whole machine -/

/-- R14, R21, R24 (derived): nothing changes the array but construction, a write and the end of the run. -/
def Obligations.OnlyWritesChangeTheArray : Prop :=
  ∀ s t : State, step s = .next t → t.mem ≠ s.mem →
    (s.phase = .unbuilt ∧ ∃ p rest, s.events = .construct p :: rest) ∨
    (s.phase = .running ∧ ∃ rest, s.events = .finish :: rest) ∨
    (s.phase = .running ∧ ∃ x rest r w d, s.events = .cycle x :: rest ∧
      selectOperation s.depth s.width x = .ok (.rdwr r w d))

/-- R93, R98, R103 (derived): no step of an instance faults once it has been constructed, and a fault is one of the
two construction errors, raised by the construction of the instance. -/
def Obligations.OnlyConstructionFaults : Prop :=
  ∀ (s : State) (e : Fault), step s = .fault e →
    s.phase = .unbuilt ∧ ∃ p rest, s.events = .construct p :: rest ∧ 1 ≤ p.depth ∧
      ((∃ l ∈ lines p.initText, leadingRun l = [] ∧ e = .parseError l) ∨
        (p.depth ≠ (lines p.initText).length ∧ e = .depthMismatch p.depth (lines p.initText).length))

/-- R10, R14, R96 (derived): the invariant of an instance is kept by every step, whatever the host presents. -/
def Obligations.EveryStepKeepsTheInvariant : Prop :=
  ∀ s t : State, s.Inv → step s = .next t → t.Inv

/-- The reset state meets the invariant (derived: R10, R14, R96). -/
def Obligations.ResetMeetsTheInvariant : Prop :=
  State.reset.Inv

/-- R14 (derived): the array always has exactly `N` words, and two canonical arrays of one depth with the same words
are the same data. -/
def Obligations.ArrayIsDeterminedByItsWords : Prop :=
  ∀ s t : State, s.cells.length = s.depth ∧
    (Memory.wf s.depth s.width s.mem → Memory.wf t.depth t.width t.mem → s.depth = t.depth → s.cells = t.cells →
      s.mem = t.mem)

/-- R19 (derived): no step of a running block changes its depth, its width or its domain identifier. -/
def Obligations.ParametersNeverChange : Prop :=
  ∀ s t : State, s.phase = .running → step s = .next t →
    t.depth = s.depth ∧ t.width = s.width ∧ t.domain = s.domain ∧ t.phase ≠ .unbuilt

/-- R8 (derived): the domain identifier has no effect on any other part of the next state, nor on how a step ends. -/
def Obligations.DomainIdentifierHasNoEffect : Prop :=
  ∀ (s : State) (d : List Char), (∀ p rest, s.events ≠ .construct p :: rest) →
    (∀ t, step s = .next t → step { s with domain := d } = .next { t with domain := d }) ∧
    (∀ e, step s = .fault e → step { s with domain := d } = .fault e) ∧
    (∀ e, step s = .refused e → step { s with domain := d } = .refused e)

/-! ## Runs, over every input stream and from every state of an instance -/

/-- R83: a running block consumes every admitted input stream, and emits exactly one output for each input. -/
def Obligations.OneOutputPerInput : Prop :=
  ∀ (s : State) (cs : List CycleInput), s.phase = .running → Admitted s.width cs →
    ∃ t, Consumes s cs t ∧ t.phase = .running ∧ t.events = s.events ∧
      ∃ out, out.length = cs.length ∧ t.emitted = s.emitted ++ out

/-- R82, R96: a machine given a construction and an input stream at reset emits exactly the outputs of the spec's run,
and stops with the construction error where the spec's run is that error. -/
def Obligations.MachineRunIsTheSpecRun : Prop :=
  ∀ (p : Params) (cs : List CycleInput), 1 ≤ p.depth → Admitted p.width cs →
    (∀ out, wholeRun p cs = .ok out →
      ∃ t, Host.Core.run Sys2Proof.core (cs.length + 1)
          (State.reset.setEvents (.construct p :: cs.map (fun c => Event.cycle (.tuple c)))) = .next t ∧
        t.emitted = out) ∧
    (∀ e, wholeRun p cs = .error e →
      Host.Core.run Sys2Proof.core (cs.length + 1)
        (State.reset.setEvents (.construct p :: cs.map (fun c => Event.cycle (.tuple c)))) = .fault e)

/-- R84: the first output of a constructed block is Undefined, for every depth, width, file and first input. -/
def Obligations.FirstOutputIsUndefined : Prop :=
  ∀ (p : Params) (ws : List Word) (c : CycleInput) (cs : List CycleInput), 1 ≤ p.depth →
    load p.initText p.width = .ok ws → ws.length = p.depth → Admitted p.width (c :: cs) →
    ∃ t u, step (State.reset.setEvents [.construct p]) = .next t ∧ Consumes t (c :: cs) u ∧
      u.emitted[0]? = some .undef

/-- R85: output `i + 1` is the read result of cycle `i`, taken from the array at the start of cycle `i`. -/
def Obligations.OutputLagsByOneCycle : Prop :=
  ∀ (s : State) (before after : List CycleInput) (c c' : CycleInput), s.phase = .running →
    Admitted s.width (before ++ c :: c' :: after) →
    ∃ t u, Consumes s before t ∧ Consumes s (before ++ c :: c' :: after) u ∧
      u.emitted[s.emitted.length + before.length + 1]? = some (memRead t c.readAddr)

/-- R87: output `i + 1` depends only on the start state, on the read address of input `i` and on the write fields of
the inputs before it: not on input `i + 1` or any later one. -/
def Obligations.OutputsAreCausal : Prop :=
  ∀ (s t t' : State) (before before' after after' : List CycleInput) (c c' d d' : CycleInput), s.phase = .running →
    List.Forall₂ (fun a b : CycleInput =>
      a.writeEnable = b.writeEnable ∧ a.writeAddr = b.writeAddr ∧ a.writeData = b.writeData) before before' →
    c.readAddr = c'.readAddr →
    Consumes s (before ++ c :: d :: after) t → Consumes s (before' ++ c' :: d' :: after') t' →
    t.emitted[s.emitted.length + before.length + 1]? = t'.emitted[s.emitted.length + before.length + 1]? ∧
    t.emitted[s.emitted.length + before.length + 1]? ≠ none

/-- R88: a word written to a cell, then read in the next cycle or in any later cycle with no write to the cell and no
poisoning write between, is the output of the cycle after that read, Undefined data included. -/
def Obligations.WrittenWordIsReadBack : Prop :=
  ∀ (s : State) (a : Nat) (ra : Address) (v : Word) (between : List CycleInput) (c c' : CycleInput), s.Inv →
    s.phase = .running → a < s.depth →
    (∀ x ∈ between, ¬ cycleHits s.depth a x) → c.readAddr = .int a →
    Admitted s.width (⟨ra, true, .int a, v⟩ :: between ++ [c, c']) →
    ∃ t, Consumes s (⟨ra, true, .int a, v⟩ :: between ++ [c, c']) t ∧
      t.emitted[s.emitted.length + between.length + 2]? = some v

/-- R90: a read through an invalid address yields Undefined one cycle later, and the array after the cycle differs
from the array before it only by that cycle's write. -/
def Obligations.UndefinedReadAddressYieldsUndefined : Prop :=
  ∀ (s : State) (c c' : CycleInput), s.phase = .running → c.wf s.width = true → c'.wf s.width = true →
    resolve s.depth c.readAddr = none →
    ∃ t u, Consumes s [c] t ∧ Consumes s [c, c'] u ∧
      u.emitted[s.emitted.length + 1]? = some .undef ∧
      (c.writeEnable = false → t.mem = s.mem) ∧
      (c.writeEnable = true → t.mem = (memWrite s c.writeAddr c.writeData).mem)

/-- R91, R92: after any input stream a cell that no input wrote or poisoned holds what it held before; else it holds
the data of the last input that wrote it, or Undefined if the last such input poisoned the array. -/
def Obligations.LastWriterWins : Prop :=
  ∀ (s : State) (cs : List CycleInput) (z : Nat), s.Inv → s.phase = .running → Admitted s.width cs → z < s.depth →
    ∃ t, Consumes s cs t ∧
      ((∀ x ∈ cs, ¬ cycleHits s.depth z x) → t.cell z = s.cell z) ∧
      (∀ before c after, cs = before ++ c :: after → cycleHits s.depth z c →
        (∀ x ∈ after, ¬ cycleHits s.depth z x) →
        t.cell z = if c.writeAddr = .int z then c.writeData else .undef)

/-! ## What rests on the model's own choices in the encodings -/

/-- R43, D7, U16 (derived): a running block whose pins have the port widths and an unknown write enable refuses. That
such pins are refused is log entry 10 (DEDUCED), and the refusal's name is the model's choice (log entry 5). -/
def Obligations.UnknownWriteEnableIsRefused : Prop :=
  ∀ (s : State) (p : Pins) (rest : List Event), s.phase = .running → s.events = .cycle (.pins p) :: rest →
    p.rdAddr.length = addrWidth s.depth → p.wrAddr.length = addrWidth s.depth → p.wrData.length = s.width →
    p.we = .unknown → step s = .refused (.badPins .unknownWriteEnable)

/-- R49, R50 (derived): four written lines read from their characters, with a hexadecimal operand, a negative address
and unknown operands. The grammar of the characters is the model's choice (log entry 11). -/
def Obligations.WrittenLinesAreRead : Prop :=
  (readLine ['W', 'R', ' ', '2', ',', ' ', '7']).toOption = some (.wr (.int 2) (.defined 7)) ∧
  (readLine ['X', 'C', 'H', 'G', ' ', '1', ',', ' ', '0', 'x', 'A', 'A']).toOption =
    some (.xchg (.int 1) (.defined 170)) ∧
  (readLine ['R', 'D', 'W', 'R', ' ', 'X', ',', ' ', '-', '1', ',', ' ', 'X']).toOption =
    some (.rdwr .undef (.int (-1)) .undef) ∧
  (readLine ['N', 'O', 'P']).toOption = some .nop
end

