-- ==== Sys2Proof/Laws/Memory.lean ====
section
/-! SUPPORT. The laws of the array: a cell read after a write, the other cells, and the canonical form, which every
operation keeps. -/

namespace Sys2Proof.Machine

theorem Memory.get_cons_same (k : Nat) (v : Word) (t : Memory) : Memory.get ((k, v) :: t) k = v := by
  simp [Memory.get]

theorem Memory.get_cons_other {k a : Nat} (h : k ≠ a) (v : Word) (t : Memory) :
    Memory.get ((k, v) :: t) a = Memory.get t a := by
  simp [Memory.get, h]

/-- A cell that no entry names holds what an unlisted cell holds. -/
theorem Memory.get_of_not_listed {t : Memory} {a : Nat} (h : ∀ c ∈ t, c.1 ≠ a) :
    Memory.get t a = unlistedWord := by
  induction t with
  | nil => rfl
  | cons c t ih =>
    obtain ⟨k, v⟩ := c
    rw [Memory.get_cons_other (h (k, v) (by simp))]
    exact ih fun c hc => h c (by simp [hc])

theorem Memory.get_put_same {a : Nat} {w : Word} {t : Memory} (h : ∀ c ∈ t, c.1 ≠ a) :
    Memory.get (Memory.put a w t) a = w := by
  unfold Memory.put
  split
  · rw [Memory.get_of_not_listed h]; simp_all
  · exact Memory.get_cons_same a w t

theorem Memory.get_put_other {a b : Nat} (h : a ≠ b) (w : Word) (t : Memory) :
    Memory.get (Memory.put a w t) b = Memory.get t b := by
  unfold Memory.put
  split
  · rfl
  · exact Memory.get_cons_other h w t

/-- A write leaves every other cell alone, whatever the list. -/
theorem Memory.get_set_other {a b : Nat} (h : a ≠ b) (w : Word) (m : Memory) :
    Memory.get (Memory.set m a w) b = Memory.get m b := by
  induction m with
  | nil => exact Memory.get_put_other h w []
  | cons c t ih =>
    obtain ⟨k, v⟩ := c
    simp only [Memory.set]
    split
    · exact Memory.get_put_other h w _
    · split
      · rename_i hk
        rw [Memory.get_put_other h, Memory.get_cons_other (by omega)]
      · simp only [Memory.get]
        split
        · rfl
        · exact ih

/-- The cell written holds what was written, in a list whose cells rise. -/
theorem Memory.get_set_same {m : Memory} (hm : m.Pairwise (fun c d => c.1 < d.1)) (a : Nat) (w : Word) :
    Memory.get (Memory.set m a w) a = w := by
  induction m with
  | nil => exact Memory.get_put_same (by simp)
  | cons c t ih =>
    obtain ⟨k, v⟩ := c
    obtain ⟨hlt, ht⟩ := List.pairwise_cons.mp hm
    simp only [Memory.set]
    split
    · rename_i hak
      apply Memory.get_put_same
      intro c hc
      rcases List.mem_cons.mp hc with rfl | hc
      · simp only [ne_eq]; omega
      · have := hlt c hc; simp only at this; omega
    · split
      · rename_i hak
        apply Memory.get_put_same
        intro c hc
        have := hlt c hc; simp only at this; omega
      · rw [Memory.get_cons_other (by omega)]
        exact ih ht

/-- What `Memory.put` can list: the cell it is given, with a Word that an unlisted cell does not hold, or the rest. -/
theorem Memory.mem_put {a : Nat} {w : Word} {t : Memory} {c : Cell} (h : c ∈ Memory.put a w t) :
    (c = (a, w) ∧ w ≠ unlistedWord) ∨ c ∈ t := by
  unfold Memory.put at h
  split at h
  · exact .inr h
  · rcases List.mem_cons.mp h with h | h
    · exact .inl ⟨h, by assumption⟩
    · exact .inr h

/-- What a write can leave listed: the cell written, or a cell listed before. -/
theorem Memory.mem_set {m : Memory} {a : Nat} {w : Word} {c : Cell} (h : c ∈ Memory.set m a w) :
    (c = (a, w) ∧ w ≠ unlistedWord) ∨ c ∈ m := by
  induction m with
  | nil => exact Memory.mem_put h
  | cons e t ih =>
    obtain ⟨k, v⟩ := e
    simp only [Memory.set] at h
    split at h
    · exact Memory.mem_put h
    · split at h
      · rcases Memory.mem_put h with h | h
        · exact .inl h
        · exact .inr (List.mem_cons_of_mem _ h)
      · rcases List.mem_cons.mp h with rfl | h
        · exact .inr (by simp)
        · rcases ih h with h | h
          · exact .inl h
          · exact .inr (List.mem_cons_of_mem _ h)

theorem Memory.put_sorted {a : Nat} {w : Word} {t : Memory} (ht : t.Pairwise (fun c d => c.1 < d.1))
    (h : ∀ c ∈ t, a < c.1) : (Memory.put a w t).Pairwise (fun c d => c.1 < d.1) := by
  unfold Memory.put
  split
  · exact ht
  · exact List.pairwise_cons.mpr ⟨h, ht⟩

theorem Memory.set_sorted {m : Memory} (hm : m.Pairwise (fun c d => c.1 < d.1)) (a : Nat) (w : Word) :
    (Memory.set m a w).Pairwise (fun c d => c.1 < d.1) := by
  induction m with
  | nil => exact Memory.put_sorted List.Pairwise.nil (by simp)
  | cons e t ih =>
    obtain ⟨k, v⟩ := e
    obtain ⟨hlt, ht⟩ := List.pairwise_cons.mp hm
    simp only [Memory.set]
    split
    · rename_i hak
      refine Memory.put_sorted hm fun c hc => ?_
      rcases List.mem_cons.mp hc with rfl | hc
      · exact hak
      · have := hlt c hc; simp only at this; omega
    · split
      · rename_i hak
        subst hak
        exact Memory.put_sorted ht hlt
      · refine List.pairwise_cons.mpr ⟨fun c hc => ?_, ih ht⟩
        rcases Memory.mem_set hc with ⟨rfl, -⟩ | hc
        · show k < a
          omega
        · exact hlt c hc

/-- A write of a Word of the width into a cell of the array keeps the canonical form. -/
theorem Memory.set_wf {n m : Nat} {mem : Memory} (h : Memory.wf n m mem) {a : Nat} {w : Word} (ha : a < n)
    (hw : w.fits m = true) : Memory.wf n m (Memory.set mem a w) := by
  refine ⟨Memory.set_sorted h.1 a w, fun c hc => ?_⟩
  rcases Memory.mem_set hc with ⟨rfl, hne⟩ | hc
  · exact ⟨ha, hne, hw⟩
  · exact h.2 c hc

/-- The poisoned array is canonical. -/
theorem Memory.poison_wf (n m : Nat) : Memory.wf n m Memory.poison :=
  ⟨List.Pairwise.nil, fun _ h => absurd h List.not_mem_nil⟩

theorem Memory.get_poison (a : Nat) : Memory.get Memory.poison a = .undef := rfl

/-- What a canonical array can list. -/
theorem Memory.get_fits {n m : Nat} {mem : Memory} (h : Memory.wf n m mem) (a : Nat) :
    (Memory.get mem a).fits m = true := by
  obtain ⟨-, h⟩ := h
  induction mem with
  | nil => rfl
  | cons c t ih =>
    obtain ⟨k, v⟩ := c
    simp only [Memory.get]
    split
    · exact (h (k, v) (by simp)).2.2
    · exact ih fun c hc => h c (by simp [hc])

/-- Nothing is held outside the array. -/
theorem Memory.get_outside {n m : Nat} {mem : Memory} (h : Memory.wf n m mem) {a : Nat} (ha : n ≤ a) :
    Memory.get mem a = .undef :=
  Memory.get_of_not_listed fun c hc => by
    have := (h.2 c hc).1
    omega

theorem Memory.mem_ofWordsFrom {k : Nat} {ws : List Word} {c : Cell} (h : c ∈ Memory.ofWordsFrom k ws) :
    k ≤ c.1 ∧ c.1 < k + ws.length ∧ c.2 ≠ unlistedWord ∧ c.2 ∈ ws := by
  induction ws generalizing k with
  | nil => simp [Memory.ofWordsFrom] at h
  | cons w t ih =>
    rcases Memory.mem_put h with ⟨rfl, hne⟩ | h
    · exact ⟨le_refl k, by simp, hne, by simp⟩
    · obtain ⟨h1, h2, h3, h4⟩ := ih h
      exact ⟨by omega, by simp only [List.length_cons]; omega, h3, by simp [h4]⟩

theorem Memory.ofWordsFrom_sorted (k : Nat) (ws : List Word) :
    (Memory.ofWordsFrom k ws).Pairwise (fun c d => c.1 < d.1) := by
  induction ws generalizing k with
  | nil => exact List.Pairwise.nil
  | cons w t ih =>
    refine Memory.put_sorted (ih (k + 1)) fun c hc => ?_
    have := (Memory.mem_ofWordsFrom hc).1
    omega

/-- The array construction makes from `n` Words of the width is canonical. -/
theorem Memory.ofWords_wf {m : Nat} {ws : List Word} (h : ∀ w ∈ ws, w.fits m = true) :
    Memory.wf ws.length m (Memory.ofWords ws) := by
  refine ⟨Memory.ofWordsFrom_sorted 0 ws, fun c hc => ?_⟩
  obtain ⟨-, h2, h3, h4⟩ := Memory.mem_ofWordsFrom hc
  exact ⟨by omega, h3, h _ h4⟩

theorem Memory.get_ofWordsFrom (k a : Nat) (ws : List Word) :
    Memory.get (Memory.ofWordsFrom k ws) (k + a) = (ws[a]?).getD .undef := by
  induction ws generalizing k a with
  | nil => simp [Memory.ofWordsFrom, Memory.get, unlistedWord]
  | cons w t ih =>
    simp only [Memory.ofWordsFrom]
    cases a with
    | zero =>
      simp only [Nat.add_zero, List.getElem?_cons_zero, Option.getD_some]
      refine Memory.get_put_same fun c hc => ?_
      have := (Memory.mem_ofWordsFrom hc).1
      omega
    | succ a =>
      rw [Memory.get_put_other (by omega), List.getElem?_cons_succ, ← ih (k + 1) a]
      congr 1
      omega

/-- Cell `a` of the array construction makes is element `a` of the sequence. -/
theorem Memory.get_ofWords (a : Nat) (ws : List Word) :
    Memory.get (Memory.ofWords ws) a = (ws[a]?).getD .undef := by
  have := Memory.get_ofWordsFrom 0 a ws
  rwa [Nat.zero_add] at this

/-- The reset state's array is canonical. -/
theorem State.reset_mem_wf : Memory.wf State.reset.depth State.reset.width State.reset.mem :=
  Memory.poison_wf 0 0

end Sys2Proof.Machine
end

