-- ==== Sys2Proof/Laws/State.lean ====
section
/-! SUPPORT. What each update of State leaves in each field. -/

namespace Sys2Proof.Machine

variable (s : State) (m : Memory) (w : Word) (es : List Event) (ws : List Word) (p : Params)

@[simp] theorem State.setMem_phase : (s.setMem m).phase = s.phase := rfl
@[simp] theorem State.setMem_depth : (s.setMem m).depth = s.depth := rfl
@[simp] theorem State.setMem_width : (s.setMem m).width = s.width := rfl
@[simp] theorem State.setMem_domain : (s.setMem m).domain = s.domain := rfl
@[simp] theorem State.setMem_mem : (s.setMem m).mem = m := rfl
@[simp] theorem State.setMem_q : (s.setMem m).q = s.q := rfl
@[simp] theorem State.setMem_events : (s.setMem m).events = s.events := rfl
@[simp] theorem State.setMem_emitted : (s.setMem m).emitted = s.emitted := rfl

@[simp] theorem State.setQ_phase : (s.setQ w).phase = s.phase := rfl
@[simp] theorem State.setQ_depth : (s.setQ w).depth = s.depth := rfl
@[simp] theorem State.setQ_width : (s.setQ w).width = s.width := rfl
@[simp] theorem State.setQ_domain : (s.setQ w).domain = s.domain := rfl
@[simp] theorem State.setQ_mem : (s.setQ w).mem = s.mem := rfl
@[simp] theorem State.setQ_q : (s.setQ w).q = w := rfl
@[simp] theorem State.setQ_events : (s.setQ w).events = s.events := rfl
@[simp] theorem State.setQ_emitted : (s.setQ w).emitted = s.emitted := rfl

@[simp] theorem State.setEvents_phase : (s.setEvents es).phase = s.phase := rfl
@[simp] theorem State.setEvents_depth : (s.setEvents es).depth = s.depth := rfl
@[simp] theorem State.setEvents_width : (s.setEvents es).width = s.width := rfl
@[simp] theorem State.setEvents_domain : (s.setEvents es).domain = s.domain := rfl
@[simp] theorem State.setEvents_mem : (s.setEvents es).mem = s.mem := rfl
@[simp] theorem State.setEvents_q : (s.setEvents es).q = s.q := rfl
@[simp] theorem State.setEvents_events : (s.setEvents es).events = es := rfl
@[simp] theorem State.setEvents_emitted : (s.setEvents es).emitted = s.emitted := rfl

@[simp] theorem State.setEmitted_phase : (s.setEmitted ws).phase = s.phase := rfl
@[simp] theorem State.setEmitted_depth : (s.setEmitted ws).depth = s.depth := rfl
@[simp] theorem State.setEmitted_width : (s.setEmitted ws).width = s.width := rfl
@[simp] theorem State.setEmitted_domain : (s.setEmitted ws).domain = s.domain := rfl
@[simp] theorem State.setEmitted_mem : (s.setEmitted ws).mem = s.mem := rfl
@[simp] theorem State.setEmitted_q : (s.setEmitted ws).q = s.q := rfl
@[simp] theorem State.setEmitted_events : (s.setEmitted ws).events = s.events := rfl
@[simp] theorem State.setEmitted_emitted : (s.setEmitted ws).emitted = ws := rfl

@[simp] theorem State.install_phase : (s.install p m).phase = .running := rfl
@[simp] theorem State.install_depth : (s.install p m).depth = p.depth := rfl
@[simp] theorem State.install_width : (s.install p m).width = p.width := rfl
@[simp] theorem State.install_domain : (s.install p m).domain = p.domain := rfl
@[simp] theorem State.install_mem : (s.install p m).mem = m := rfl
@[simp] theorem State.install_q : (s.install p m).q = .undef := rfl
@[simp] theorem State.install_events : (s.install p m).events = s.events := rfl
@[simp] theorem State.install_emitted : (s.install p m).emitted = s.emitted := rfl

@[simp] theorem State.discard_phase : s.discard.phase = .ended := rfl
@[simp] theorem State.discard_depth : s.discard.depth = s.depth := rfl
@[simp] theorem State.discard_width : s.discard.width = s.width := rfl
@[simp] theorem State.discard_domain : s.discard.domain = s.domain := rfl
@[simp] theorem State.discard_mem : s.discard.mem = [] := rfl
@[simp] theorem State.discard_q : s.discard.q = .undef := rfl
@[simp] theorem State.discard_events : s.discard.events = s.events := rfl
@[simp] theorem State.discard_emitted : s.discard.emitted = s.emitted := rfl

end Sys2Proof.Machine
end

