-- ==== Sys2Proof/Laws/Ops.lean ====
section
/-! SUPPORT. What each shared operation can do, once: address resolution, the two ports, the output register, the
loader, construction, and one step. -/

namespace Sys2Proof.Machine

/-! ## Addresses and the two ports -/

/-- An address resolves to a cell exactly when it is that cell's number and the cell is in the array. -/
theorem resolve_eq_some {n z : Nat} {a : Address} : resolve n a = some z ↔ a = .int z ∧ z < n := by
  cases a with
  | undef => simp [resolve]
  | int y =>
    simp only [resolve, Address.int.injEq]
    constructor
    · intro h
      split at h
      · simp only [Option.some.injEq] at h; omega
      · cases h
    · rintro ⟨rfl, h⟩
      simp [h]

theorem resolve_lt {n z : Nat} {a : Address} (h : resolve n a = some z) : z < n :=
  (resolve_eq_some.mp h).2

/-- The read port on a valid address. -/
theorem memRead_valid {s : State} {a : Address} {z : Nat} (h : resolve s.depth a = some z) :
    memRead s a = s.cell z := by
  simp [memRead, h]

/-- The read port on an invalid address. -/
theorem memRead_invalid {s : State} {a : Address} (h : resolve s.depth a = none) : memRead s a = .undef := by
  simp [memRead, h]

/-- The write port on a valid address. -/
theorem memWrite_valid {s : State} {a : Address} {z : Nat} (h : resolve s.depth a = some z) (d : Word) :
    memWrite s a d = s.setMem (Memory.set s.mem z d) := by
  simp [memWrite, memWriteUnder, h]

/-- The write port on an invalid address. -/
theorem memWrite_invalid {s : State} {a : Address} (h : resolve s.depth a = none) (d : Word) :
    memWrite s a d = s.setMem Memory.poison := by
  simp [memWrite, memWriteUnder, writeInvalidPolicy, h]

/-- All the write port can do: it changes the array alone. -/
theorem memWrite_eq (s : State) (a : Address) (d : Word) : memWrite s a d = s.setMem (memWrite s a d).mem := by
  cases h : resolve s.depth a with
  | none => rw [memWrite_invalid h]; rfl
  | some z => rw [memWrite_valid h]; rfl

@[simp] theorem memWrite_phase (s : State) (a : Address) (d : Word) : (memWrite s a d).phase = s.phase := by
  rw [memWrite_eq]; rfl

@[simp] theorem memWrite_depth (s : State) (a : Address) (d : Word) : (memWrite s a d).depth = s.depth := by
  rw [memWrite_eq]; rfl

@[simp] theorem memWrite_width (s : State) (a : Address) (d : Word) : (memWrite s a d).width = s.width := by
  rw [memWrite_eq]; rfl

@[simp] theorem memWrite_domain (s : State) (a : Address) (d : Word) : (memWrite s a d).domain = s.domain := by
  rw [memWrite_eq]; rfl

@[simp] theorem memWrite_q (s : State) (a : Address) (d : Word) : (memWrite s a d).q = s.q := by
  rw [memWrite_eq]; rfl

@[simp] theorem memWrite_events (s : State) (a : Address) (d : Word) : (memWrite s a d).events = s.events := by
  rw [memWrite_eq]; rfl

@[simp] theorem memWrite_emitted (s : State) (a : Address) (d : Word) : (memWrite s a d).emitted = s.emitted := by
  rw [memWrite_eq]; rfl

/-- The write port keeps the canonical form of the array. -/
theorem memWrite_wf {s : State} (hs : Memory.wf s.depth s.width s.mem) (a : Address) {d : Word}
    (hd : d.fits s.width = true) : Memory.wf s.depth s.width (memWrite s a d).mem := by
  cases h : resolve s.depth a with
  | none => rw [memWrite_invalid h]; exact Memory.poison_wf _ _
  | some z => rw [memWrite_valid h]; exact Memory.set_wf hs (resolve_lt h) hd

/-- The read port gives a Word of the width. -/
theorem memRead_fits {s : State} (hs : Memory.wf s.depth s.width s.mem) (a : Address) :
    (memRead s a).fits s.width = true := by
  cases h : resolve s.depth a with
  | none => rw [memRead_invalid h]; rfl
  | some z => rw [memRead_valid h]; exact Memory.get_fits hs z

/-! ## The output register -/

@[simp] theorem latchOutput_phase (w : Word) (s : State) : (latchOutput w s).phase = s.phase := rfl
@[simp] theorem latchOutput_depth (w : Word) (s : State) : (latchOutput w s).depth = s.depth := rfl
@[simp] theorem latchOutput_width (w : Word) (s : State) : (latchOutput w s).width = s.width := rfl
@[simp] theorem latchOutput_domain (w : Word) (s : State) : (latchOutput w s).domain = s.domain := rfl
@[simp] theorem latchOutput_mem (w : Word) (s : State) : (latchOutput w s).mem = s.mem := rfl
@[simp] theorem latchOutput_q (w : Word) (s : State) : (latchOutput w s).q = w := rfl
@[simp] theorem latchOutput_events (w : Word) (s : State) : (latchOutput w s).events = s.events := rfl
@[simp] theorem latchOutput_emitted (w : Word) (s : State) : (latchOutput w s).emitted = s.emitted ++ [s.q] := rfl

/-! ## The operations -/

/-- All an operation can do: each always answers a next state, through the two ports and the register. -/
theorem exec_cases {i : Instr} {s t : State} (h : exec i s = .next t) :
    (∃ r, i = .rd r ∧ t = latchOutput (memRead s r) s) ∨
      (∃ r w d, i = .rdwr r w d ∧ t = latchOutput (memRead s r) (memWrite s w d)) := by
  cases i with
  | rd r => exact .inl ⟨r, rfl, by simpa [exec, execRd] using h.symm⟩
  | rdwr r w d => exact .inr ⟨r, w, d, rfl, by simpa [exec, execRdwr] using h.symm⟩

/-! ## The loader and construction -/

/-- All LOAD can give for a sequence of lines: one Word for each line, the one that line parses to. -/
theorem loadLines_ok {m : Nat} {ls : List (List Char)} {ws : List Word} (h : loadLines m ls = .ok ws) :
    List.Forall₂ (fun l w => parseLine l m = .ok w) ls ws := by
  induction ls generalizing ws with
  | nil => cases h; exact .nil
  | cons l ls ih =>
    simp only [loadLines] at h
    split at h
    · cases h
    · rename_i w hw
      split at h
      · cases h
      · rename_i ws' hws
        cases h
        exact .cons hw (ih hws)

/-- A line that parses gives a defined Word of the width. -/
theorem parseLine_ok {s : List Char} {m : Nat} {w : Word} (h : parseLine s m = .ok w) :
    ∃ v, v < 2 ^ m ∧ w = .defined v := by
  simp only [parseLine] at h
  split at h
  · cases h
  · cases h
    exact ⟨_, Nat.mod_lt _ (by positivity), rfl⟩

theorem loadLines_fits {m : Nat} {ls : List (List Char)} {ws : List Word} (h : loadLines m ls = .ok ws) :
    ∀ w ∈ ws, w.fits m = true := by
  intro w hw
  obtain ⟨k, hk, rfl⟩ := List.getElem_of_mem hw
  have hlen := (loadLines_ok h).length_eq
  obtain ⟨v, hv, he⟩ := parseLine_ok ((List.forall₂_iff_get.mp (loadLines_ok h)).2 k (by omega) hk)
  rw [List.get_eq_getElem] at he
  simpa [he, Word.fits] using hv

/-- All construction can give: a block with the words of the file, or a stop. -/
theorem constructBlock_next {p : Params} {s t : State} (h : constructBlock p s = .next t) :
    s.phase = .unbuilt ∧ 1 ≤ p.depth ∧
      ∃ ws, load p.initText p.width = .ok ws ∧ ws.length = p.depth ∧ t = s.install p (Memory.ofWords ws) := by
  simp only [constructBlock] at h
  split at h
  · rename_i hph
    split at h
    · rename_i hp
      split at h
      · cases h
      · rename_i ws hws
        split at h
        · cases h
        · rename_i m hm
          simp only [constructArray] at hm
          split at hm
          · rename_i hlen
            cases hm
            cases h
            exact ⟨hph, by simpa [Params.wf] using hp, ws, hws, hlen, rfl⟩
          · cases hm
    · cases h
  · cases h
  · cases h

/-- All the end of a run can give. -/
theorem endRun_next {s t : State} (h : endRun s = .next t) : s.phase = .running ∧ t = s.discard := by
  simp only [endRun] at h
  split at h
  · rename_i hph
    cases h
    exact ⟨hph, rfl⟩
  · cases h
  · cases h

/-- All fetching an operation can give: a running block and data of its width. -/
theorem fetchOperation_ok {s : State} {x : Stimulus} {i : Instr} (h : fetchOperation s x = .ok i) :
    s.phase = .running ∧ selectOperation s.depth s.width x = .ok i ∧ i.wf s.width = true := by
  simp only [fetchOperation] at h
  split at h
  · cases h
  · cases h
  · rename_i hph
    split at h
    · cases h
    · rename_i j hj
      split at h
      · rename_i hwf
        cases h
        exact ⟨hph, hj, hwf⟩
      · cases h

/-- All one step can do. -/
theorem step_cases {s t : State} (h : step s = .next t) :
    (∃ p rest, s.events = .construct p :: rest ∧ constructBlock p (s.setEvents rest) = .next t) ∨
      (∃ rest, s.events = .finish :: rest ∧ endRun (s.setEvents rest) = .next t) ∨
      (∃ x rest i, s.events = .cycle x :: rest ∧ fetchOperation s x = .ok i ∧
        exec i (s.setEvents rest) = .next t) := by
  simp only [step] at h
  split at h
  · cases h
  · rename_i p rest he
    exact .inl ⟨p, rest, he, h⟩
  · rename_i rest he
    exact .inr (.inl ⟨rest, he, h⟩)
  · rename_i x rest he
    split at h
    · cases h
    · rename_i i hi
      exact .inr (.inr ⟨x, rest, i, he, hi, h⟩)

end Sys2Proof.Machine
end

