-- ==== Sys2Proof/Laws/PerInstr.lean ====
section
/-! SUPPORT. Statements about each operation as syntax, one lemma per constructor. -/

namespace Sys2Proof.Laws

/-- R38, R49: an operation is the one selected by the CycleInput it denotes, and it is well formed exactly when that
CycleInput is admitted. -/
def TupleForm.Statement (i : Instr) : Prop :=
  i.toTuple.select = i ∧ ∀ m, i.wf m = i.toTuple.wf m

theorem TupleForm.rd (readAddr : Address) : TupleForm.Statement (.rd readAddr) :=
  ⟨rfl, fun _ => rfl⟩

theorem TupleForm.rdwr (readAddr writeAddr : Address) (writeData : Word) :
    TupleForm.Statement (.rdwr readAddr writeAddr writeData) :=
  ⟨rfl, fun _ => rfl⟩

end Sys2Proof.Laws
end

