-- ==== Sys2Proof/Laws/Run.lean ====
section
/-! SUPPORT. What a run of several steps does, one step at a time. -/

namespace Sys2Proof.Machine

theorem coreRun_of_next (M : Host.Core) {s s' : M.State} (k : Nat) (h : M.step s = .next s') :
    M.run (k + 1) s = M.run k s' := by
  simp only [Host.Core.run, h]

theorem coreRun_of_fault (M : Host.Core) {s : M.State} {e : M.Fault} (k : Nat) (h : M.step s = .fault e) :
    M.run (k + 1) s = .fault e := by
  simp only [Host.Core.run, h]

theorem coreRun_of_refused (M : Host.Core) {s : M.State} {e : M.Refusal} (k : Nat) (h : M.step s = .refused e) :
    M.run (k + 1) s = .refused e := by
  simp only [Host.Core.run, h]

theorem run_of_next {s s' : State} (k : Nat) (h : step s = .next s') :
    Host.Core.run Sys2Proof.core (k + 1) s = Host.Core.run Sys2Proof.core k s' :=
  coreRun_of_next Sys2Proof.core k h

theorem run_of_fault {s : State} {e : Fault} (k : Nat) (h : step s = .fault e) :
    Host.Core.run Sys2Proof.core (k + 1) s = .fault e :=
  coreRun_of_fault Sys2Proof.core k h

theorem run_of_refused {s : State} {e : Refusal} (k : Nat) (h : step s = .refused e) :
    Host.Core.run Sys2Proof.core (k + 1) s = .refused e :=
  coreRun_of_refused Sys2Proof.core k h

/-- All a run of one more step can give. -/
theorem run_succ_next {s t : State} {k : Nat} (h : Host.Core.run Sys2Proof.core (k + 1) s = .next t) :
    ∃ s', step s = .next s' ∧ Host.Core.run Sys2Proof.core k s' = .next t := by
  cases hs : step s with
  | next s' => exact ⟨s', rfl, (run_of_next k hs).symm.trans h⟩
  | fault e => rw [run_of_fault k hs] at h; cases h
  | refused e => rw [run_of_refused k hs] at h; cases h

end Sys2Proof.Machine
end

