-- ==== Sys2Proof/Machine/Flags.lean ====
section
/-! DEFINITION. The flag computations of the block: none. R22 gives it no flag, no condition code and no status
register; an unknown state is the Word Undefined in the data, so nothing is declared here. -/
end

