-- ==== Sys2Proof/Tests/Slice0.lean ====
section
/-! SUPPORT. Tests: the vectors of 95_test_vectors.md one step at a time, words written out from R44, an ill-formed
term for each check, and for every statement with hypotheses a case that meets all of them. Every expected value is
the spec's own, from the vector or rule its comment names. -/

namespace Sys2Proof.Machine

/-! ## Small states -/

/-- The block of the cycle vectors of section 3: `N = 4`, `M = 4`, array `[1, 2, 3, 4]`, register 9. -/
def vectorBlock : State :=
  { phase := .running, depth := 4, width := 4, domain := [], q := .defined 9, events := [], emitted := []
    mem := [(0, .defined 1), (1, .defined 2), (2, .defined 3), (3, .defined 4)] }

/-- A block of one cell (end of section 3): `N = 1`, `M = 4`, array `[7]`, register 3. -/
def oneCellBlock : State :=
  { vectorBlock with depth := 1, mem := [(0, .defined 7)], q := .defined 3 }

/-- The parameters of program P1: three lines of three digits. -/
def smallParams : Params :=
  { depth := 3, width := 3, domain := []
    initText := ['0', '0', '1', '\n', '0', '1', '0', '\n', '0', '1', '1', '\n'] }

def fresh (p : Params) : State := State.reset.setEvents [.construct p]

def cycleOf (s : State) (c : CycleInput) : State := s.feed [c]

/-- Register, array and outputs after a step that answers a next state. -/
def seen (o : Host.Outcome State Fault Refusal) : Option (Word × List Word × List Word) :=
  match o with
  | .next t => some (t.q, t.cells, t.emitted)
  | .fault _ => none
  | .refused _ => none

def faultOf (o : Host.Outcome State Fault Refusal) : Option Fault :=
  match o with
  | .fault e => some e
  | .next _ => none
  | .refused _ => none

def refusalOf (o : Host.Outcome State Fault Refusal) : Option Refusal :=
  match o with
  | .refused e => some e
  | .next _ => none
  | .fault _ => none

def okOf {ε α : Type} (x : Except ε α) : Option α :=
  match x with
  | .ok a => some a
  | .error _ => none

theorem vectorBlock_inv : vectorBlock.Inv :=
  ⟨by decide, by decide, by decide, by decide, by decide, by decide⟩

theorem oneCellBlock_inv : oneCellBlock.Inv :=
  ⟨by decide, by decide, by decide, by decide, by decide, by decide⟩

/-! ## Words written out from R44: `wr_data`, `wr_addr`, `rd_addr`, `we`, most significant first -/

/-- RD 2 with `N = 4`, `M = 4` (vector V1, 0x004): 0000 00 10 0. -/
theorem test_decode_rd : okOf (decodeCmd 4 4 0b000000100) = some (.rd (.int 2)) := by decide

/-- RDWR 1, 2, 7 with `N = 3`, `M = 3` (example of R44, 0xF3): 111 10 01 1. -/
theorem test_decode_rdwr :
    okOf (decodeCmd 3 3 0b11110011) = some (.rdwr (.int 1) (.int 2) (.defined 7)) := by decide

/-- RDWR 2, 1, 3 with `N = 3`, `M = 4` (program P3 cycle 4, 0x06D), and its encoding. -/
theorem test_encode_rdwr : encodeCmd 3 4 (.rdwr (.int 2) (.int 1) (.defined 3)) = some 0x06D := by decide

/-- The table's word of RDWR, read at the parameters of R44's example, and of RD with set bits in its unused fields. -/
theorem test_table_words :
    decodeTableWord 8 0xF3 = some (.rdwr (.int 1) (.int 2) (.defined 7)) ∧
    decodeTableWord 8 0xF2 = some (.rd (.int 1)) := by decide

/-- `AW` for `N` of 1, 2, 3, 4 and 5 (R9). -/
theorem test_addrWidth : [1, 2, 3, 4, 5].map addrWidth = [1, 1, 2, 2, 3] := by decide

/-- A table word runs as the first operation after reset: register 2 from cell 1, then cell 2 holds 7 (vector S2). -/
theorem test_withFetchWord :
    seen (step (State.reset.withFetchWord 8 0xF3)) =
      some (.defined 2, [.defined 1, .defined 2, .defined 7], [.undef]) := by decide

/-! ## Ill-formed terms, each refused -/

/-- R36: data 16 is no word of four bits; 15 is. -/
theorem test_instr_wf_refuses :
    (Instr.rdwr (.int 0) (.int 0) (.defined 16)).wf 4 = false ∧
    (Instr.rdwr (.int 0) (.int 0) (.defined 15)).wf 4 = true := by decide

theorem test_cycle_wf_refuses :
    (CycleInput.mk (.int 0) true (.int 0) (.defined 16)).wf 4 = false ∧
    (CycleInput.mk (.int 0) false (.int 0) (.defined 16)).wf 4 = true := by decide

theorem test_step_refuses_outside_domain :
    refusalOf (step (cycleOf vectorBlock ⟨.int 0, true, .int 0, .defined 16⟩)) = some .outsideDomain := by decide

/-- D15: depth zero is refused. -/
theorem test_params_wf_refuses :
    { smallParams with depth := 0 }.wf = false ∧
    refusalOf (step (fresh { smallParams with depth := 0 })) = some .zeroDepth := by decide

/-- The canonical form refuses an array out of order, a cell outside, a listed Undefined and a word too wide. -/
theorem test_memory_wf_refuses :
    ¬ Memory.wf 4 4 [(1, .defined 1), (0, .defined 1)] ∧ ¬ Memory.wf 4 4 [(4, .defined 1)] ∧
    ¬ Memory.wf 4 4 [(0, .undef)] ∧ ¬ Memory.wf 4 4 [(0, .defined 16)] := by decide

/-- R44: `CW = 8` for `N = 3`, `M = 3`; R43: an unknown write enable. -/
theorem test_decoding_refuses :
    refusalOf (step ((oneCellBlock.setEvents [.cycle (.word 256)]))) = some (.undecodable .commandTooWide) ∧
    refusalOf (step ((oneCellBlock.setEvents
      [.cycle (.pins ⟨[.zero], .unknown, [.zero], [.zero, .zero, .zero, .zero]⟩)]))) =
        some (.badPins .unknownWriteEnable) := by decide

/-! ## RD and RDWR: two vectors each -/

/-- V3: the highest address. -/
theorem test_rd_highest :
    seen (step (cycleOf vectorBlock ⟨.int 3, false, .int 0, .defined 0⟩)) =
      some (.defined 4, [.defined 1, .defined 2, .defined 3, .defined 4], [.defined 9]) := by decide

/-- V4: address `N` reads Undefined, and the array is untouched. -/
theorem test_rd_outside :
    seen (step (cycleOf vectorBlock ⟨.int 4, false, .int 0, .defined 0⟩)) =
      some (.undef, [.defined 1, .defined 2, .defined 3, .defined 4], [.defined 9]) := by decide

/-- V8: same address, the old data is read. -/
theorem test_rdwr_collision :
    seen (step (cycleOf vectorBlock ⟨.int 2, true, .int 2, .defined 15⟩)) =
      some (.defined 3, [.defined 1, .defined 2, .defined 15, .defined 4], [.defined 9]) := by decide

/-- V13: write address `N` poisons the array; the read was before it. Under `noop` the array would be unchanged. -/
theorem test_rdwr_poisons :
    seen (step (cycleOf vectorBlock ⟨.int 3, true, .int 4, .defined 0⟩)) =
      some (.defined 4, [.undef, .undef, .undef, .undef], [.defined 9]) ∧
    (memWriteUnder .noop vectorBlock (.int 4) (.defined 0)).cells =
      [.defined 1, .defined 2, .defined 3, .defined 4] := by decide

/-! ## The loader and construction -/

/-- LL8, LL10 and LL4: `0b101` loads 0, `10_01` loads 2, `1000` of three bits loads 0. -/
theorem test_parseLine :
    okOf (parseLine ['0', 'b', '1', '0', '1'] 3) = some (.defined 0) ∧
    okOf (parseLine ['1', '0', '_', '0', '1'] 3) = some (.defined 2) ∧
    okOf (parseLine ['1', '0', '0', '0'] 3) = some (.defined 0) := by decide

/-- LF1. -/
theorem test_construct :
    seen (step (fresh smallParams)) = some (.undef, [.defined 1, .defined 2, .defined 3], []) := by decide

/-- LF7 and LF9: too few lines, and the empty text. -/
theorem test_construct_depthMismatch :
    faultOf (step (fresh ⟨3, 2, ['0', '1', '\n', '1', '0', '\n'], []⟩)) = some (.depthMismatch 3 2) ∧
    faultOf (step (fresh ⟨1, 1, [], []⟩)) = some (.depthMismatch 1 0) := by decide

/-- LF10 and LF6: the malformed line is reported before the length, and a blank line is malformed. -/
theorem test_construct_parseError :
    faultOf (step (fresh ⟨2, 2, ['z', 'z', '\n'], []⟩)) = some (.parseError ['z', 'z']) ∧
    faultOf (step (fresh ⟨2, 1, ['1', '\n', '\n'], []⟩)) = some (.parseError []) := by decide

/-- R49: written lines, a hexadecimal operand, a negative address and an unknown one. -/
theorem test_readLine :
    okOf (readLine ['R', 'D', 'W', 'R', ' ', '1', ',', ' ', '2', ',', ' ', '0', 'x', 'A', 'a']) =
      some (.rdwr (.int 1) (.int 2) (.defined 170)) ∧
    okOf (readLine ['R', 'D', ' ', '-', '1']) = some (.rd (.int (-1))) ∧
    okOf (readLine ['R', 'D', ' ', 'X']) = some (.rd .undef) ∧
    okOf (readLine ['R', 'D']) = none := by decide

/-! ## Witnesses: each statement's hypotheses are met together -/

def pinsEvent (we : Level) : Event :=
  .cycle (.pins ⟨[.one, .unknown], we, [.zero, .one], [.one, .zero, .zero, .one]⟩)

def wr (a d : Nat) : CycleInput := ⟨.int 0, true, .int a, .defined d⟩

def rdAt (a : Nat) : CycleInput := ⟨.int a, false, .int 0, .defined 0⟩

theorem witness_DecodeOfEncodeIsIdentity : 3 < 2 ^ addrWidth 3 ∧ 7 < 2 ^ 3 := by decide

theorem witness_CommandWordLayout :
    (3 < 2 ^ addrWidth 3 ∧ 0 < 2 ^ addrWidth 3 ∧ 7 < 2 ^ 3 ∧ 0 < addrWidth 3) ∧
    (CycleInput.mk .undef true (.int 0) (.defined 0)).readAddr = .undef := by decide

theorem witness_EveryCommandWordDecodes : 255 < 2 ^ cmdWidth 3 3 ∧ 2 ^ cmdWidth 3 3 ≤ 256 := by decide

theorem witness_AddressPortCarriesUnsigned :
    1 ≤ 3 ∧ 3 < 2 ^ addrWidth 3 ∧ [Level.one, Level.one].length = addrWidth 3 ∧
    Level.unknown ∉ [Level.one, Level.one] ∧ resolve 3 (addressOfLevels (levelsOf (addrWidth 3) 3)) = none ∧
    resolve 3 (addressOfLevels (levelsOf (addrWidth 3) 2)) = some 2 := by decide

theorem witness_PortPatternsOfWords :
    7 < 2 ^ 3 ∧ Level.unknown ∈ [Level.one, Level.unknown] ∧
    (match Pins.sample 4 4 ⟨[.one, .unknown], .one, [.zero, .one], [.one, .zero, .zero, .one]⟩ with
      | .ok c => c.writeEnable
      | .error _ => false) = true := by decide

theorem witness_UnknownWriteEnableIsRefused :
    (vectorBlock.setEvents [pinsEvent .unknown]).phase = .running ∧
    (vectorBlock.setEvents [pinsEvent .unknown]).events = [pinsEvent .unknown] ∧
    [Level.one, Level.unknown].length = addrWidth vectorBlock.depth ∧
    [Level.one, Level.zero, Level.zero, Level.one].length = vectorBlock.width := by decide

theorem witness_PseudoOperationsExpand :
    1 ≤ vectorBlock.depth ∧ vectorBlock.phase = .running ∧
    (Line.xchg (.int 3) (.defined 15)).expand.wf vectorBlock.width = true := by decide

theorem witness_PinsRunAsTheirTuple :
    (vectorBlock.setEvents [pinsEvent (levelOf true)]).events = [pinsEvent .one] ∧
    (vectorBlock.setEvents [pinsEvent .one]).phase = .running ∧ addrWidth vectorBlock.depth = 2 := by decide

theorem witness_LinesCutAtLineFeeds :
    (∀ l ∈ [['0'], [], ['1', '\r']], '\n' ∉ l) ∧ '\n' ∉ ['1'] ∧ ['1'] ≠ [] := by decide

theorem witness_ParseLineUsesLeadingRun :
    (['1', 'x'].head? = some '1') ∧ ¬ (' ' = '0' ∨ ' ' = '1') ∧ leadingRun [] = [] := by decide

theorem witness_TrailingContentIgnored :
    ['1'] ≠ [] ∧ (∀ c ∈ ['1'], c = '0' ∨ c = '1') ∧ 'x' ≠ '0' ∧ 'x' ≠ '1' := by simp

theorem witness_RunFittedToWidth :
    ['1', '0'] ≠ [] ∧ (∀ c ∈ ['1', '0'], c = '0' ∨ c = '1') ∧ ['1', '0'].length ≤ 2 ∧ 1 < ['1', '0'].length := by
  simp

theorem witness_LoadGivesWordPerLine :
    okOf (load ['1', '\n'] 1) = some [.defined 1] ∧ okOf (load ['x'] 1) = none := by decide

theorem witness_LoadedWordsAreDefined :
    okOf (load smallParams.initText 3) = some [.defined 1, .defined 2, .defined 3] ∧
    (fresh smallParams).phase = .unbuilt ∧ (fresh smallParams).events = [.construct smallParams] ∧
    1 ≤ smallParams.depth ∧ [Word.defined 1, .defined 2, .defined 3].length = smallParams.depth := by decide

/-- The text of vector LF2 in two digits: it does not end in a line feed. -/
theorem witness_ExactFileLoadsItsValues :
    1 ≤ 2 ∧ lines ['0', '1', '\n', '1', '1'] = [['0', '1'], ['1', '1']] ∧
    ∀ l ∈ [['0', '1'], ['1', '1']], l.length = 2 ∧ ∀ c ∈ l, c = '0' ∨ c = '1' :=
  ⟨by decide, by decide, by simp⟩

theorem witness_ConstructionFillsTheArray :
    okOf (load ['1', '\n'] 1) = some [.defined 1] ∧ [Word.defined 1].length ≠ 2 ∧
    (fresh ⟨2, 1, ['1', '\n'], []⟩).events = [.construct ⟨2, 1, ['1', '\n'], []⟩] := by decide

theorem witness_ParseErrorAbortsConstruction :
    lines ['1', '\n', 'x', '\n', 'y'] = [['1']] ++ ['x'] :: [['y']] ∧ (∀ x ∈ [['1']], leadingRun x ≠ []) ∧
    leadingRun ['x'] = [] ∧ (fresh smallParams).phase = .unbuilt := by decide

theorem witness_NothingRunsWithoutABlock :
    State.reset.phase ≠ .running ∧ vectorBlock.phase ≠ .unbuilt ∧ { smallParams with depth := 0 }.depth = 0 ∧
    refusalOf (step (State.reset.setEvents [.finish])) = some .noBlock ∧
    refusalOf (step (vectorBlock.setEvents [.construct smallParams])) = some .alreadyConstructed := by decide

theorem witness_EndOfRunDiscardsTheBlock :
    (vectorBlock.setEvents [.finish]).phase = .running ∧ (vectorBlock.setEvents [.finish]).events = [.finish] := by
  decide

theorem witness_ResetPrecedesConstruction :
    1 ≤ smallParams.depth ∧ (okOf (load smallParams.initText smallParams.width)).map List.length =
      some smallParams.depth := by decide

theorem witness_StepRunsTheSelectedOperation :
    (cycleOf vectorBlock (wr 3 15)).phase = .running ∧ (wr 3 15).wf 4 = true ∧
    okOf (selectOperation 4 4 (.word 0x1F3)) = some (.rdwr (.int 1) (.int 2) (.defined 15)) := by decide

theorem witness_NoCycleInputStopsTheBlock : vectorBlock.phase = .running ∧ (wr 3 15).wf vectorBlock.width = true := by
  decide

theorem witness_UnusedWriteFieldsAreIgnored :
    vectorBlock.phase = .running ∧ seen (step (vectorBlock.feed [⟨.int 2, false, .undef, .undef⟩])) =
      some (.defined 3, [.defined 1, .defined 2, .defined 3, .defined 4], [.defined 9]) := by decide

/-- The clauses of the read statements: the first and last cell, the first address outside on either side. -/
theorem witness_read_clauses :
    (3 < vectorBlock.depth ∧ ¬ 4 < vectorBlock.depth) ∧ resolve 4 (.int 0) = some 0 ∧ resolve 4 (.int 3) = some 3 ∧
    resolve 4 (.int 4) = none ∧ resolve 4 (.int (-1)) = none ∧ resolve 4 .undef = none := by decide

theorem witness_write_statements :
    Memory.wf vectorBlock.depth vectorBlock.width vectorBlock.mem ∧ 3 < vectorBlock.depth ∧ (wr 3 1).writeEnable = true ∧
    (rdAt 3).writeEnable = false := by decide

theorem witness_OutputIsThePreviousReadResult :
    vectorBlock.phase = .running ∧ (seen (step (vectorBlock.feed [wr 3 15]))).isSome = true := by decide

theorem witness_first_cycle : ∃ t v, step (State.reset.setEvents [.construct smallParams]) = .next t ∧
    step (t.feed [rdAt 0]) = .next v :=
  ⟨_, _, rfl, rfl⟩

theorem witness_DifferentAddressesDoNotDisturb : 2 < vectorBlock.depth ∧ Address.int 1 ≠ Address.int 2 := by decide

theorem witness_CycleIsTheStepFunction :
    vectorBlock.Inv ∧ vectorBlock.phase = .running ∧ (wr 4 15).wf vectorBlock.width = true :=
  ⟨vectorBlock_inv, by decide, by decide⟩

theorem witness_EveryStepKeepsTheInvariant : ∃ t, (cycleOf vectorBlock (wr 3 15)).Inv ∧
    step (cycleOf vectorBlock (wr 3 15)) = .next t :=
  ⟨_, ⟨by decide, by decide, by decide, by decide, by decide, by decide⟩, rfl⟩

theorem witness_OnlyWritesChangeTheArray : ∃ t, step (cycleOf vectorBlock (wr 3 15)) = .next t ∧
    t.mem ≠ (cycleOf vectorBlock (wr 3 15)).mem :=
  ⟨_, rfl, by decide⟩

theorem witness_OnlyConstructionFaults :
    faultOf (step (fresh ⟨1, 1, ['x'], []⟩)) = some (.parseError ['x']) := by decide

theorem witness_ArrayIsDeterminedByItsWords :
    Memory.wf vectorBlock.depth vectorBlock.width vectorBlock.mem ∧
    vectorBlock.cells = (vectorBlock.setQ .undef).cells := by decide

theorem witness_ParametersNeverChange : ∃ t, vectorBlock.phase = .running ∧
    step (vectorBlock.setEvents [.finish]) = .next t :=
  ⟨_, by decide, rfl⟩

theorem witness_DomainIdentifierHasNoEffect :
    (∀ p rest, (cycleOf vectorBlock (wr 3 15)).events ≠ .construct p :: rest) ∧
    refusalOf (step { vectorBlock with domain := ['d'] }) = some .noHostEvent :=
  ⟨(by intro p rest h; cases h), by decide⟩

theorem witness_OneOutputPerInput :
    vectorBlock.phase = .running ∧ Admitted vectorBlock.width [wr 3 15, rdAt 3] := by decide

theorem witness_MachineRunIsTheSpecRun :
    1 ≤ smallParams.depth ∧ Admitted smallParams.width [rdAt 0, wr 2 7] ∧
    okOf (wholeRun smallParams [rdAt 0, wr 2 7]) = some [.undef, .defined 1] ∧
    okOf (wholeRun { smallParams with depth := 2 } []) = none := by decide

theorem witness_FirstOutputIsUndefined :
    okOf (load smallParams.initText smallParams.width) = some [.defined 1, .defined 2, .defined 3] ∧
    Admitted smallParams.width [rdAt 0] := by decide

theorem witness_OutputLagsByOneCycle :
    vectorBlock.phase = .running ∧ Admitted vectorBlock.width ([wr 3 15] ++ rdAt 3 :: rdAt 0 :: []) := by decide

theorem witness_OutputsAreCausal : ∃ t t', vectorBlock.phase = .running ∧
    (rdAt 3).readAddr = (CycleInput.mk (.int 3) true .undef .undef).readAddr ∧
    Consumes vectorBlock ([] ++ rdAt 3 :: rdAt 0 :: []) t ∧
    Consumes vectorBlock ([] ++ ⟨.int 3, true, .undef, .undef⟩ :: rdAt 1 :: []) t' :=
  ⟨_, _, by decide, by decide, rfl, rfl⟩

theorem witness_WrittenWordIsReadBack :
    vectorBlock.Inv ∧ vectorBlock.phase = .running ∧ 3 < vectorBlock.depth ∧
    (∀ x ∈ [wr 0 1], ¬ cycleHits vectorBlock.depth 3 x) ∧ (rdAt 3).readAddr = .int 3 ∧
    Admitted vectorBlock.width (wr 3 15 :: [wr 0 1] ++ [rdAt 3, rdAt 0]) :=
  ⟨vectorBlock_inv, by decide, by decide, by decide, by decide, by decide⟩

theorem witness_UndefinedReadAddressYieldsUndefined :
    vectorBlock.phase = .running ∧ (rdAt 4).wf vectorBlock.width = true ∧
    resolve vectorBlock.depth (rdAt 4).readAddr = none := by decide

theorem witness_LastWriterWins :
    vectorBlock.Inv ∧ Admitted vectorBlock.width [wr 4 1, wr 3 15, wr 0 1] ∧ 3 < vectorBlock.depth ∧
    cycleHits vectorBlock.depth 3 (wr 4 1) ∧ cycleHits vectorBlock.depth 3 (wr 3 15) ∧
    ¬ cycleHits vectorBlock.depth 3 (wr 0 1) :=
  ⟨vectorBlock_inv, by decide, by decide, by decide, by decide, by decide⟩

end Sys2Proof.Machine
end

section
/-! SUPPORT. Replacing the domain identifier (R8) commutes with everything a step does except construction, and the
one statement that follows. -/

namespace Sys2Proof.Machine

/-- The same instance with another domain identifier. -/
def State.setDomain (s : State) (d : List Char) : State := { s with domain := d }

/-- An outcome with `f` applied to its next state; a fault or a refusal stays as it is. -/
def mapNext (f : State → State) : Host.Outcome State Fault Refusal → Host.Outcome State Fault Refusal
  | .next t => .next (f t)
  | .fault e => .fault e
  | .refused r => .refused r

@[simp] theorem mapNext_next (f : State → State) (t : State) : mapNext f (.next t) = .next (f t) := rfl

variable (s : State) (d : List Char)

@[simp] theorem State.setDomain_mem : (s.setDomain d).mem = s.mem := rfl
@[simp] theorem State.setDomain_events : (s.setDomain d).events = s.events := rfl

theorem State.setMem_setDomain (m : Memory) : (s.setDomain d).setMem m = (s.setMem m).setDomain d := rfl

theorem State.setEvents_setDomain (es : List Event) :
    (s.setDomain d).setEvents es = (s.setEvents es).setDomain d := rfl

@[simp] theorem memRead_setDomain (a : Address) : memRead (s.setDomain d) a = memRead s a := rfl

theorem latchOutput_setDomain (w : Word) : latchOutput w (s.setDomain d) = (latchOutput w s).setDomain d := rfl

@[simp] theorem fetchOperation_setDomain (x : Stimulus) :
    fetchOperation (s.setDomain d) x = fetchOperation s x := rfl

/-- The write port chooses its cell, or the poisoning, by the depth alone. -/
theorem memWrite_setDomain (a : Address) (w : Word) :
    memWrite (s.setDomain d) a w = (memWrite s a w).setDomain d := by
  cases h : resolve s.depth a with
  | none =>
    rw [memWrite_invalid (s := s) h, memWrite_invalid (s := s.setDomain d) h, State.setMem_setDomain]
  | some z =>
    rw [memWrite_valid (s := s) h, memWrite_valid (s := s.setDomain d) h, State.setMem_setDomain,
      State.setDomain_mem]

theorem exec_setDomain (i : Instr) : exec i (s.setDomain d) = mapNext (·.setDomain d) (exec i s) := by
  cases i with
  | rd r => simp only [exec, execRd, memRead_setDomain, latchOutput_setDomain, mapNext_next]
  | rdwr r w x =>
    simp only [exec, execRdwr, memRead_setDomain, memWrite_setDomain, latchOutput_setDomain, mapNext_next]

/-- The end of a run is decided by the phase alone. -/
theorem endRun_setDomain : endRun (s.setDomain d) = mapNext (·.setDomain d) (endRun s) := by
  obtain ⟨phase⟩ := s
  cases phase <;> rfl

/-- Every step but a construction, which sets the identifier, ends the same way under another identifier. -/
theorem step_setDomain (hc : ∀ p rest, s.events ≠ .construct p :: rest) :
    step (s.setDomain d) = mapNext (·.setDomain d) (step s) := by
  unfold step
  rw [State.setDomain_events]
  match h : s.events with
  | [] => rfl
  | .construct p :: rest => exact absurd h (hc p rest)
  | .finish :: rest => simp only [State.setEvents_setDomain, endRun_setDomain]
  | .cycle x :: rest =>
    simp only [fetchOperation_setDomain, State.setEvents_setDomain]
    cases fetchOperation s x with
    | error r => rfl
    | ok i => exact exec_setDomain _ d i

/-- Settles O43: a step commutes with replacing the identifier, whichever of the three ways it ends. -/
theorem domainIdentifierHasNoEffect : Obligations.DomainIdentifierHasNoEffect := by
  intro s d hc
  have key : step { s with domain := d } = mapNext (·.setDomain d) (step s) := step_setDomain s d hc
  have ends_alike {o : Host.Outcome State Fault Refusal} (h : step s = o) :
      step { s with domain := d } = mapNext (·.setDomain d) o := key.trans (congrArg _ h)
  exact ⟨fun _ => ends_alike, fun _ => ends_alike, fun _ => ends_alike⟩

end Sys2Proof.Machine
end

section
/-! SUPPORT. The two operations and the outcomes of a step as equations, with the statements about a single step: its
frame (R17, R19), what may change the array (R14), and the end of a run (R20). -/

namespace Sys2Proof.Machine

/-! ## The operations as equations, and their frames -/

theorem exec_rd (r : Address) (s : State) : exec (.rd r) s = .next (latchOutput (memRead s r) s) := rfl

theorem exec_rdwr (r w : Address) (d : Word) (s : State) :
    exec (.rdwr r w d) s = .next (latchOutput (memRead s r) (memWrite s w d)) := rfl

@[simp] theorem latchOutput_cell (raw : Word) (s : State) (k : Nat) : (latchOutput raw s).cell k = s.cell k := rfl

/-- A write through a valid address leaves every other cell alone. -/
theorem memWrite_cell_other {s : State} {w : Address} {y k : Nat} (hw : resolve s.depth w = some y) (hk : k ≠ y)
    (d : Word) : (memWrite s w d).cell k = s.cell k := by
  rw [memWrite_valid hw]
  exact Memory.get_set_other hk.symm d s.mem

/-- No write, valid or not, puts anything outside the array. -/
theorem memWrite_cell_outside {s : State} {k : Nat} (hk : s.depth ≤ k) (hu : s.cell k = .undef) (w : Address)
    (d : Word) : (memWrite s w d).cell k = .undef := by
  cases hw : resolve s.depth w with
  | none =>
    rw [memWrite_invalid hw]
    exact Memory.get_poison k
  | some y =>
    have hy : y < s.depth := resolve_lt hw
    rw [memWrite_cell_other hw (by omega), hu]

/-- No operation touches the phase or the parameters, and each emits the register's old content (R19, R75). -/
theorem exec_frame {i : Instr} {s t : State} (h : exec i s = .next t) :
    t.phase = s.phase ∧ t.depth = s.depth ∧ t.width = s.width ∧ t.domain = s.domain ∧
      t.emitted = s.emitted ++ [s.q] := by
  obtain ⟨r, -, rfl⟩ | ⟨r, w, d, -, rfl⟩ := exec_cases h <;> simp

/-- Settles O35: both operations answer by an equation, and the write port's laws give the cells. -/
theorem frameOfRdAndRdwr : Obligations.FrameOfRdAndRdwr := by
  constructor
  · intro r s
    exact ⟨_, exec_rd r s, by simp⟩
  · intro r w d s
    refine ⟨_, exec_rdwr r w d s, fun y hw k hk => ?_, fun k hk hu => ?_, by simp⟩
    · rw [latchOutput_cell, memWrite_cell_other hw hk]
    · rw [latchOutput_cell, memWrite_cell_outside hk hu]

/-! ## One step that answers a next state -/

/-- All a step can answer as a next state: a constructed block, the end of a run, or one operation of a running
block. -/
theorem step_next {s t : State} (h : step s = .next t) :
    (∃ p rest ws, s.events = .construct p :: rest ∧ s.phase = .unbuilt ∧ 1 ≤ p.depth ∧
        load p.initText p.width = .ok ws ∧ ws.length = p.depth ∧
        t = (s.setEvents rest).install p (Memory.ofWords ws)) ∨
      (∃ rest, s.events = .finish :: rest ∧ s.phase = .running ∧ t = (s.setEvents rest).discard) ∨
      (∃ x rest i, s.events = .cycle x :: rest ∧ s.phase = .running ∧
        selectOperation s.depth s.width x = .ok i ∧ i.wf s.width = true ∧ exec i (s.setEvents rest) = .next t) := by
  obtain ⟨p, rest, he, hc⟩ | ⟨rest, he, hf⟩ | ⟨x, rest, i, he, hi, hx⟩ := step_cases h
  · obtain ⟨hph, hp, ws, hws, hlen, ht⟩ := constructBlock_next hc
    exact .inl ⟨p, rest, ws, he, hph, hp, hws, hlen, ht⟩
  · obtain ⟨hph, ht⟩ := endRun_next hf
    exact .inr (.inl ⟨rest, he, hph, ht⟩)
  · obtain ⟨hph, hsel, hwf⟩ := fetchOperation_ok hi
    exact .inr (.inr ⟨x, rest, i, he, hph, hsel, hwf, hx⟩)

/-- Settles O37: of the operations RD leaves the array as it was, so the one that changed it is RDWR. -/
theorem onlyWritesChangeTheArray : Obligations.OnlyWritesChangeTheArray := by
  intro s t h hne
  obtain ⟨p, rest, -, he, hph, -⟩ | ⟨rest, he, hph, -⟩ | ⟨x, rest, i, he, hph, hsel, -, hx⟩ := step_next h
  · exact .inl ⟨hph, p, rest, he⟩
  · exact .inr (.inl ⟨hph, rest, he⟩)
  · obtain ⟨r, -, rfl⟩ | ⟨r, w, d, rfl, -⟩ := exec_cases hx
    · exact absurd rfl hne
    · exact .inr (.inr ⟨hph, x, rest, r, w, d, he, hsel⟩)

/-- Settles O42: a running block is not constructed again, and neither the end of the run nor an operation sets a
parameter. -/
theorem parametersNeverChange : Obligations.ParametersNeverChange := by
  intro s t hrun h
  obtain ⟨p, rest, ws, -, hph, -⟩ | ⟨rest, -, -, rfl⟩ | ⟨x, rest, i, -, -, -, -, hx⟩ := step_next h
  · rw [hrun] at hph
    cases hph
  · simp
  · obtain ⟨hph, hdepth, hwidth, hdomain, -⟩ := exec_frame hx
    exact ⟨hdepth, hwidth, hdomain, by simp [hph, hrun]⟩

/-! ## The end of a run -/

theorem step_finish {s : State} {rest : List Event} (hrun : s.phase = .running) (he : s.events = .finish :: rest) :
    step s = .next (s.setEvents rest).discard := by
  simp [step, he, endRun, hrun]

/-- Nothing the host does has a meaning after the end of a run (R20, R117). -/
theorem step_refused_of_ended {s : State} {e : Event} {es : List Event} (hend : s.phase = .ended)
    (he : s.events = e :: es) : ∃ r, step s = .refused r := by
  cases e with
  | construct p => exact ⟨.alreadyConstructed, by simp [step, he, constructBlock, hend]⟩
  | cycle x => exact ⟨.noBlock, by simp [step, he, fetchOperation, hend]⟩
  | finish => exact ⟨.noBlock, by simp [step, he, endRun, hend]⟩

/-- Settles O20: the next state is the discarded one, which refuses every event. -/
theorem endOfRunDiscardsTheBlock : Obligations.EndOfRunDiscardsTheBlock := by
  intro s rest hrun he
  exact ⟨_, step_finish hrun he, rfl, rfl, rfl, rfl, fun _ _ => step_refused_of_ended rfl rfl⟩

end Sys2Proof.Machine
end

section
/-! SUPPORT. The invariant of an instance (`State.Inv`), kept by each thing that makes a next state: construction, the
end of a run, and an operation. -/

namespace Sys2Proof.Machine

variable {s : State}

theorem State.Inv.setEvents (h : s.Inv) (es : List Event) : (s.setEvents es).Inv :=
  ⟨h.array, h.register, h.outputs, h.depth_pos, h.no_block, h.fresh⟩

/-- A block constructed from a loaded file: nothing has been emitted yet, since the instance was fresh. -/
theorem State.Inv.install (h : s.Inv) (hph : s.phase = .unbuilt) {p : Params} {ws : List Word} (hp : 1 ≤ p.depth)
    (hws : load p.initText p.width = .ok ws) (hlen : ws.length = p.depth) :
    (s.install p (Memory.ofWords ws)).Inv where
  array := by
    rw [State.install_depth, ← hlen]
    exact Memory.ofWords_wf (loadLines_fits hws)
  register := rfl
  outputs := by
    obtain ⟨-, -, hnone⟩ := h.fresh hph
    simp [hnone]
  depth_pos _ := hp
  no_block hrun := absurd rfl hrun
  fresh hunbuilt := by cases hunbuilt

theorem State.Inv.discard (h : s.Inv) : s.discard.Inv where
  array := Memory.poison_wf _ _
  register := rfl
  outputs := h.outputs
  depth_pos hrun := by cases hrun
  no_block _ := ⟨rfl, rfl⟩
  fresh hunbuilt := by cases hunbuilt

/-- The register's old content goes to the outputs and a Word of the width takes its place. -/
theorem State.Inv.latchOutput (h : s.Inv) (hrun : s.phase = .running) {raw : Word} (hraw : raw.fits s.width = true) :
    (latchOutput raw s).Inv where
  array := h.array
  register := hraw
  outputs w hw := by
    rcases List.mem_append.mp hw with hold | hnew
    · exact h.outputs w hold
    · rw [List.mem_singleton.mp hnew]
      exact h.register
  depth_pos := h.depth_pos
  no_block hnot := absurd hrun hnot
  fresh hunbuilt := by simp [hrun] at hunbuilt

theorem State.Inv.memWrite (h : s.Inv) (hrun : s.phase = .running) (a : Address) {d : Word}
    (hd : d.fits s.width = true) : (memWrite s a d).Inv where
  array := by simpa using memWrite_wf h.array a hd
  register := by simpa using h.register
  outputs := by simpa using h.outputs
  depth_pos := by simpa using h.depth_pos
  no_block hnot := by simp [hrun] at hnot
  fresh hunbuilt := by simp [hrun] at hunbuilt

/-- A well-formed operation of a running block: both ports keep the width and the canonical form. -/
theorem State.Inv.exec (h : s.Inv) (hrun : s.phase = .running) {i : Instr} (hi : i.wf s.width = true) {t : State}
    (hx : exec i s = .next t) : t.Inv := by
  have hread (r : Address) : (memRead s r).fits s.width = true := memRead_fits h.array r
  obtain ⟨r, -, rfl⟩ | ⟨r, w, d, rfl, rfl⟩ := exec_cases hx
  · exact h.latchOutput hrun (hread r)
  · exact (h.memWrite hrun w hi).latchOutput (by simpa using hrun) (by simpa using hread r)

/-- Settles O39, one case for each thing that makes a next state. -/
theorem everyStepKeepsTheInvariant : Obligations.EveryStepKeepsTheInvariant := by
  intro s t hs h
  obtain ⟨p, rest, ws, -, hph, hp, hws, hlen, rfl⟩ | ⟨rest, -, -, rfl⟩ | ⟨x, rest, i, -, hrun, -, hi, hx⟩ := step_next h
  · exact (hs.setEvents rest).install hph hp hws hlen
  · exact (hs.setEvents rest).discard
  · exact (hs.setEvents rest).exec hrun hi hx

/-- Settles O40: before construction there is no array, no register content and no output. -/
theorem resetMeetsTheInvariant : Obligations.ResetMeetsTheInvariant where
  array := State.reset_mem_wf
  register := rfl
  outputs _ hw := absurd hw List.not_mem_nil
  depth_pos hrun := by cases hrun
  no_block _ := ⟨rfl, rfl⟩
  fresh _ := ⟨rfl, rfl, rfl⟩

end Sys2Proof.Machine
end

section
/-! SUPPORT. The array as its `N` Words: what construction puts there (R16, R67), and that a canonical array is
determined by them (R14). -/

namespace Sys2Proof.Machine

@[simp] theorem State.cells_length (s : State) : s.cells.length = s.depth := by
  simp [State.cells]

/-! ## The words of a constructed block -/

theorem State.cells_install (s : State) {p : Params} {ws : List Word} (hlen : ws.length = p.depth) :
    (s.install p (Memory.ofWords ws)).cells = ws := by
  refine List.ext_getElem (by simp [hlen]) fun k _ hk => ?_
  simp [State.cells, State.cell, Memory.get_ofWords, hk]

theorem step_construct {s : State} {p : Params} {rest : List Event} (he : s.events = .construct p :: rest) :
    step s = constructBlock p (s.setEvents rest) := by
  simp [step, he]

/-- A file that loads, of as many lines as the depth, constructs its block. -/
theorem constructBlock_of_load {s : State} {p : Params} {ws : List Word} (hph : s.phase = .unbuilt) (hp : 1 ≤ p.depth)
    (hws : load p.initText p.width = .ok ws) (hlen : ws.length = p.depth) :
    constructBlock p s = .next (s.install p (Memory.ofWords ws)) := by
  simp [constructBlock, constructArray, Params.wf, hph, hp, hws, hlen]

/-- Every loaded Word is defined (R62). -/
theorem undef_not_mem_of_load {text : List Char} {m : Nat} {ws : List Word} (h : load text m = .ok ws) :
    Word.undef ∉ ws := by
  intro hmem
  obtain ⟨k, hk, hword⟩ := List.getElem_of_mem hmem
  have hlen := (loadLines_ok h).length_eq
  obtain ⟨v, -, hv⟩ := parseLine_ok ((List.forall₂_iff_get.mp (loadLines_ok h)).2 k (by omega) hk)
  rw [List.get_eq_getElem, hword] at hv
  cases hv

/-- Settles O21: the step is the construction, whose block holds the words of the file. -/
theorem resetPrecedesConstruction : Obligations.ResetPrecedesConstruction := by
  refine ⟨rfl, rfl, rfl, rfl, rfl, fun p ws hp hws hlen => ?_⟩
  have hstep : step (State.reset.setEvents [.construct p]) =
      .next ((State.reset.setEvents []).install p (Memory.ofWords ws)) :=
    (step_construct rfl).trans (constructBlock_of_load rfl hp hws hlen)
  have hcells := State.cells_install (State.reset.setEvents []) hlen
  exact ⟨_, hstep, hcells, rfl, hcells.symm ▸ undef_not_mem_of_load hws⟩

/-! ## A canonical array and its words -/

/-- A listed cell holds what its entry says, in a list whose cells rise. -/
theorem Memory.get_of_mem {mem : Memory} (hs : mem.Pairwise (fun c d => c.1 < d.1)) {c : Cell} (hc : c ∈ mem) :
    Memory.get mem c.1 = c.2 := by
  induction mem with
  | nil => cases hc
  | cons e t ih =>
    obtain ⟨hlt, ht⟩ := List.pairwise_cons.mp hs
    rcases List.mem_cons.mp hc with rfl | hc
    · exact Memory.get_cons_same c.1 c.2 t
    · rw [Memory.get_cons_other (hlt c hc).ne, ih ht hc]

/-- A cell that holds another Word than an unlisted cell does is listed with it. -/
theorem Memory.mem_of_get {mem : Memory} {c : Cell} (hc : Memory.get mem c.1 = c.2) (hne : c.2 ≠ unlistedWord) :
    c ∈ mem := by
  induction mem with
  | nil => exact absurd hc.symm hne
  | cons e t ih =>
    obtain ⟨k, v⟩ := e
    rcases eq_or_ne k c.1 with rfl | hk
    · rw [Memory.get_cons_same] at hc
      simp [hc]
    · rw [Memory.get_cons_other hk] at hc
      exact List.mem_cons_of_mem _ (ih hc)

/-- The cells a canonical array lists are those that hold another Word than an unlisted cell does. -/
theorem Memory.mem_iff_get {n m : Nat} {mem : Memory} (h : Memory.wf n m mem) (c : Cell) :
    c ∈ mem ↔ Memory.get mem c.1 = c.2 ∧ c.2 ≠ unlistedWord := by
  obtain ⟨hsorted, hlisted⟩ := h
  constructor
  · intro hc
    obtain ⟨-, hne, -⟩ := hlisted c hc
    exact ⟨Memory.get_of_mem hsorted hc, hne⟩
  · rintro ⟨hget, hne⟩
    exact Memory.mem_of_get hget hne

/-- Two canonical arrays with the same content in every cell are the same list: both list the same cells, and each
lists them in rising order. -/
theorem Memory.ext_get {n m n' m' : Nat} {mem mem' : Memory} (h : Memory.wf n m mem) (h' : Memory.wf n' m' mem')
    (hget : ∀ k, Memory.get mem k = Memory.get mem' k) : mem = mem' := by
  have hirrefl : Std.Irrefl (fun c d : Cell => c.1 < d.1) := ⟨fun c => lt_irrefl c.1⟩
  have hantisymm : Std.Antisymm (fun c d : Cell => c.1 < d.1) := ⟨fun _ _ hcd hdc => absurd hcd hdc.asymm⟩
  refine List.Pairwise.eq_of_mem_iff h.1 h'.1 fun c => ?_
  rw [Memory.mem_iff_get h, Memory.mem_iff_get h', hget]

/-- Settles O41: equal words are equal contents in the array, and outside it both arrays hold nothing. -/
theorem arrayIsDeterminedByItsWords : Obligations.ArrayIsDeterminedByItsWords := by
  intro s t
  refine ⟨s.cells_length, fun hs ht hdepth hcells => Memory.ext_get hs ht fun k => ?_⟩
  rcases lt_or_ge k s.depth with hk | hk
  · simp only [State.cells, ← hdepth] at hcells
    exact List.map_inj_left.mp hcells k (List.mem_range.mpr hk)
  · rw [Memory.get_outside hs hk, Memory.get_outside ht (hdepth ▸ hk)]

end Sys2Proof.Machine
end

section
/-! SUPPORT. The read port beside the output register: latching a read result changes no later read (R28, R70). -/

namespace Sys2Proof.Machine

/-- A read sees neither the register nor what has been emitted. -/
@[simp] theorem memRead_latchOutput (raw : Word) (s : State) (a : Address) :
    memRead (latchOutput raw s) a = memRead s a := rfl

theorem latchOutput_eq (raw : Word) (s : State) :
    latchOutput raw s = { s with q := raw, emitted := s.emitted ++ [s.q] } := rfl

/-- Settles O28: a read only latches its result, so the same read again finds the same array. -/
theorem readsLeaveTheArrayAlone : Obligations.ReadsLeaveTheArrayAlone := by
  intro r s
  have hagain : memRead (latchOutput (memRead s r) s) r = memRead s r := memRead_latchOutput _ s r
  exact ⟨_, _, exec_rd r s, exec_rd r _, latchOutput_eq _ s, hagain, by simp, memRead_invalid⟩

end Sys2Proof.Machine
end

section
/-! SUPPORT. The packed command word (R44): where its fields stand, that `packCycle` and `unpackCycle` are inverse to
each other on the numbers of `CW` bits, and the statements about decoding and encoding. -/

namespace Sys2Proof

/-! ## Bit fields of a number -/

theorem bitField_lt (w lo width : Nat) : bitField w lo width < 2 ^ width :=
  Nat.mod_lt _ (Nat.two_pow_pos width)

theorem testBit_bitField {k width : Nat} (hk : k < width) (w lo : Nat) :
    (bitField w lo width).testBit k = w.testBit (k + lo) := by
  simp [bitField, Nat.testBit_mod_two_pow, Nat.testBit_div_two_pow, hk]

/-- A field is read back from between the bits below it and the bits above it. -/
theorem bitField_of_parts {lo l v width : Nat} (hlo : lo < 2 ^ l) (hv : v < 2 ^ width) (hi : Nat) :
    bitField (lo + 2 ^ l * (v + 2 ^ width * hi)) l width = v := by
  rw [bitField, Nat.add_mul_div_left _ _ (Nat.two_pow_pos l), Nat.div_eq_of_lt hlo, Nat.zero_add,
    Nat.add_mul_mod_self_left, Nat.mod_eq_of_lt hv]

/-- The low bits of a number are its lower bits and one more field above them. -/
theorem mod_two_pow_add (w l width : Nat) : w % 2 ^ (l + width) = w % 2 ^ l + 2 ^ l * bitField w l width := by
  rw [Nat.pow_add, Nat.mod_mul, bitField]

theorem add_two_pow_mul_lt {lo l v width : Nat} (hlo : lo < 2 ^ l) (hv : v < 2 ^ width) :
    lo + 2 ^ l * v < 2 ^ (l + width) :=
  calc lo + 2 ^ l * v < 2 ^ l + 2 ^ l * v := Nat.add_lt_add_right hlo _
    _ = 2 ^ l * (v + 1) := by ring
    _ ≤ 2 ^ l * 2 ^ width := Nat.mul_le_mul_left _ hv
    _ = 2 ^ (l + width) := (Nat.pow_add 2 l width).symm

/-! ## The formula of the word and its fields -/

/-- R44's formula, for address ports of `aw` bits. -/
def packedWord (aw : Nat) (we : Bool) (ra wa wd : Nat) : Nat :=
  we.toNat + 2 * ra + 2 ^ (aw + 1) * wa + 2 ^ (2 * aw + 1) * wd

section
variable {aw m ra wa wd : Nat} (we : Bool)

theorem packedWord_mod_two (aw ra wa wd : Nat) : packedWord aw we ra wa wd % 2 = we.toNat := by
  have hparts : packedWord aw we ra wa wd = we.toNat + 2 * (ra + 2 ^ aw * wa + 2 ^ (2 * aw) * wd) := by
    rw [packedWord]
    ring
  rw [hparts, Nat.add_mul_mod_self_left, Nat.mod_eq_of_lt we.toNat_lt]

theorem bitField_packedWord_readAddr (hra : ra < 2 ^ aw) (wa wd : Nat) :
    bitField (packedWord aw we ra wa wd) 1 aw = ra := by
  have hparts : packedWord aw we ra wa wd = we.toNat + 2 ^ 1 * (ra + 2 ^ aw * (wa + 2 ^ aw * wd)) := by
    rw [packedWord]
    ring
  rw [hparts, bitField_of_parts we.toNat_lt hra]

theorem we_readAddr_lt (hra : ra < 2 ^ aw) : we.toNat + 2 * ra < 2 ^ (aw + 1) := by
  have := we.toNat_lt
  omega

theorem bitField_packedWord_writeAddr (hra : ra < 2 ^ aw) (hwa : wa < 2 ^ aw) (wd : Nat) :
    bitField (packedWord aw we ra wa wd) (aw + 1) aw = wa := by
  have hparts : packedWord aw we ra wa wd = we.toNat + 2 * ra + 2 ^ (aw + 1) * (wa + 2 ^ aw * wd) := by
    rw [packedWord]
    ring
  rw [hparts, bitField_of_parts (we_readAddr_lt we hra) hwa]

theorem we_addrs_lt (hra : ra < 2 ^ aw) (hwa : wa < 2 ^ aw) :
    we.toNat + 2 * ra + 2 ^ (aw + 1) * wa < 2 ^ (2 * aw + 1) := by
  have hlt := add_two_pow_mul_lt (we_readAddr_lt we hra) hwa
  rwa [show aw + 1 + aw = 2 * aw + 1 by omega] at hlt

theorem bitField_packedWord_writeData (hra : ra < 2 ^ aw) (hwa : wa < 2 ^ aw) (hwd : wd < 2 ^ m) :
    bitField (packedWord aw we ra wa wd) (2 * aw + 1) m = wd :=
  bitField_of_parts (we_addrs_lt we hra hwa) hwd 0

theorem packedWord_lt (hra : ra < 2 ^ aw) (hwa : wa < 2 ^ aw) (hwd : wd < 2 ^ m) :
    packedWord aw we ra wa wd < 2 ^ (1 + 2 * aw + m) := by
  rw [Nat.add_comm 1]
  exact add_two_pow_mul_lt (we_addrs_lt we hra hwa) hwd

end

/-- A number of `CW` bits is the formula over its own fields. -/
theorem packedWord_bitFields (aw m w : Nat) :
    packedWord aw (w % 2 == 1) (bitField w 1 aw) (bitField w (aw + 1) aw) (bitField w (2 * aw + 1) m) =
      w % 2 ^ (1 + 2 * aw + m) := by
  have hwe : (w % 2 == 1).toNat = w % 2 := by
    rcases Nat.mod_two_eq_zero_or_one w with h | h <;> simp [h]
  rw [show 1 + 2 * aw + m = 1 + aw + aw + m by omega, mod_two_pow_add, mod_two_pow_add, mod_two_pow_add, packedWord,
    hwe, show 1 + aw + aw = 2 * aw + 1 by omega, Nat.add_comm 1 aw, Nat.pow_one]

/-! ## Packing and unpacking are inverse -/

@[simp] theorem Address.pattern_eq_some {aw b : Nat} {a : Address} :
    a.pattern aw = some b ↔ a = .int b ∧ b < 2 ^ aw := by
  cases a with
  | undef => simp [Address.pattern]
  | int z =>
    have hcast : ((2 ^ aw : Nat) : Int) = 2 ^ aw := by simp
    simp only [Address.pattern, Option.ite_none_right_eq_some, Option.some.injEq, Address.int.injEq]
    omega

@[simp] theorem Word.pattern_eq_some {m v : Nat} {d : Word} :
    d.pattern m = some v ↔ d = .defined v ∧ v < 2 ^ m := by
  cases d with
  | undef => simp [Word.pattern]
  | defined u =>
    simp only [Word.pattern, Option.ite_none_right_eq_some, Option.some.injEq, Word.defined.injEq]
    exact ⟨fun ⟨hlt, he⟩ => ⟨he, he ▸ hlt⟩, fun ⟨he, hlt⟩ => ⟨he ▸ hlt, he⟩⟩

theorem packCycle_of_lt {n m ra wa wd : Nat} (we : Bool) (hra : ra < 2 ^ addrWidth n) (hwa : wa < 2 ^ addrWidth n)
    (hwd : wd < 2 ^ m) :
    packCycle n m ⟨.int ra, we, .int wa, .defined wd⟩ = some (packedWord (addrWidth n) we ra wa wd) := by
  have hr : (Address.int ra).pattern (addrWidth n) = some ra := Address.pattern_eq_some.mpr ⟨rfl, hra⟩
  have hw : (Address.int wa).pattern (addrWidth n) = some wa := Address.pattern_eq_some.mpr ⟨rfl, hwa⟩
  have hd : (Word.defined wd).pattern m = some wd := Word.pattern_eq_some.mpr ⟨rfl, hwd⟩
  simp [packCycle, hr, hw, hd, packedWord]

/-- All packing can give: the formula over three fields that fit their ports. -/
theorem packCycle_some {n m w : Nat} {c : CycleInput} (h : packCycle n m c = some w) :
    ∃ ra wa wd : Nat, ra < 2 ^ addrWidth n ∧ wa < 2 ^ addrWidth n ∧ wd < 2 ^ m ∧
      c = ⟨.int ra, c.writeEnable, .int wa, .defined wd⟩ ∧
      w = packedWord (addrWidth n) c.writeEnable ra wa wd := by
  obtain ⟨r, we, a, d⟩ := c
  simp only [packCycle] at h
  split at h
  · rename_i ra wa wd hr ha hd
    obtain ⟨rfl, hra⟩ := Address.pattern_eq_some.mp hr
    obtain ⟨rfl, hwa⟩ := Address.pattern_eq_some.mp ha
    obtain ⟨rfl, hwd⟩ := Word.pattern_eq_some.mp hd
    exact ⟨ra, wa, wd, hra, hwa, hwd, rfl, (Option.some.inj h).symm⟩
  · cases h

theorem unpackCycle_packedWord {n m ra wa wd : Nat} (we : Bool) (hra : ra < 2 ^ addrWidth n)
    (hwa : wa < 2 ^ addrWidth n) (hwd : wd < 2 ^ m) :
    unpackCycle n m (packedWord (addrWidth n) we ra wa wd) = ⟨.int ra, we, .int wa, .defined wd⟩ := by
  have hwe : (we.toNat == 1) = we := by cases we <;> rfl
  rw [unpackCycle, packedWord_mod_two, bitField_packedWord_readAddr we hra, bitField_packedWord_writeAddr we hra hwa,
    bitField_packedWord_writeData we hra hwa hwd, hwe]

theorem packCycle_unpackCycle (n m w : Nat) :
    packCycle n m (unpackCycle n m w) = some (w % 2 ^ cmdWidth n m) := by
  rw [unpackCycle, packCycle_of_lt _ (bitField_lt ..) (bitField_lt ..) (bitField_lt ..), packedWord_bitFields, cmdWidth]

/-- R44: a CycleInput packs to `w` exactly when `w` is a number of `CW` bits that unpacks to it. -/
theorem packCycle_eq_some {n m w : Nat} {c : CycleInput} :
    packCycle n m c = some w ↔ w < 2 ^ cmdWidth n m ∧ unpackCycle n m w = c := by
  constructor
  · intro h
    obtain ⟨ra, wa, wd, hra, hwa, hwd, hc, rfl⟩ := packCycle_some h
    exact ⟨packedWord_lt _ hra hwa hwd, (unpackCycle_packedWord _ hra hwa hwd).trans hc.symm⟩
  · rintro ⟨hlt, rfl⟩
    rw [packCycle_unpackCycle, Nat.mod_eq_of_lt hlt]

/-! ## Operations and their command words -/

@[simp] theorem Instr.select_toTuple (i : Instr) : i.toTuple.select = i := by
  cases i with
  | rd r => exact (Laws.TupleForm.rd r).1
  | rdwr r w d => exact (Laws.TupleForm.rdwr r w d).1

theorem CycleInput.toTuple_select_of_write {c : CycleInput} (h : c.writeEnable = true) : c.select.toTuple = c := by
  obtain ⟨r, we, a, d⟩ := c
  subst h
  rfl

theorem CycleInput.select_of_read {c : CycleInput} (h : c.writeEnable = false) : c.select = .rd c.readAddr := by
  simp [CycleInput.select, h]

/-- R36, R39: an input is admitted exactly when the operation it selects is well formed. -/
@[simp] theorem CycleInput.select_wf (m : Nat) (c : CycleInput) : c.select.wf m = c.wf m := by
  obtain ⟨r, we, a, d⟩ := c
  cases we <;> rfl

theorem unpackCycle_wf (n m w : Nat) : (unpackCycle n m w).wf m = true := by
  simp [unpackCycle, CycleInput.wf, Word.fits, bitField_lt]

theorem decodeCmd_of_lt {n m w : Nat} (h : w < 2 ^ cmdWidth n m) :
    decodeCmd n m w = .ok (unpackCycle n m w).select := if_pos h

theorem decodeCmd_of_le {n m w : Nat} (h : 2 ^ cmdWidth n m ≤ w) : decodeCmd n m w = .error .commandTooWide :=
  if_neg (Nat.not_lt.mpr h)

/-- Every operation a command word stands for is well formed. -/
theorem decodeCmd_wf {n m w : Nat} {i : Instr} (h : decodeCmd n m w = .ok i) : i.wf m = true := by
  rcases Nat.lt_or_ge w (2 ^ cmdWidth n m) with hlt | hle
  · rw [decodeCmd_of_lt hlt] at h
    cases h
    rw [CycleInput.select_wf, unpackCycle_wf]
  · rw [decodeCmd_of_le hle] at h
    cases h

theorem encodeCmd_lt {n m w : Nat} {i : Instr} (h : encodeCmd n m i = some w) : w < 2 ^ cmdWidth n m :=
  (packCycle_eq_some.mp h).1

/-- R44, R38: a command word decodes to the operation that was encoded. -/
theorem decodeCmd_of_encodeCmd {n m w : Nat} {i : Instr} (h : encodeCmd n m i = some w) : decodeCmd n m w = .ok i := by
  obtain ⟨hlt, hunpack⟩ := packCycle_eq_some.mp h
  rw [decodeCmd_of_lt hlt, hunpack, Instr.select_toTuple]

/-- R44: the canonical form of RD, its two unused fields zero. -/
theorem encodeCmd_rd {n ra : Nat} (m : Nat) (hra : ra < 2 ^ addrWidth n) :
    encodeCmd n m (.rd (.int ra)) = some (2 * ra) := by
  have henc : encodeCmd n m (.rd (.int ra)) = some (packedWord (addrWidth n) false ra 0 0) :=
    packCycle_of_lt false hra (Nat.two_pow_pos _) (Nat.two_pow_pos _)
  simpa [packedWord] using henc

theorem encodeCmd_rdwr {n m ra wa d : Nat} (hra : ra < 2 ^ addrWidth n) (hwa : wa < 2 ^ addrWidth n) (hd : d < 2 ^ m) :
    encodeCmd n m (.rdwr (.int ra) (.int wa) (.defined d)) = some (packedWord (addrWidth n) true ra wa d) :=
  packCycle_of_lt true hra hwa hd

/-- Encoding what a number of `CW` bits decodes to gives the number back, for RD with its unused fields zero. -/
theorem encodeCmd_unpackCycle {n m w : Nat} (h : w < 2 ^ cmdWidth n m) :
    encodeCmd n m (unpackCycle n m w).select = some (if w % 2 = 1 then w else w % 2 ^ (addrWidth n + 1)) := by
  split
  · rename_i hodd
    have hwrite : (unpackCycle n m w).writeEnable = true := by simp [unpackCycle, hodd]
    rw [encodeCmd, CycleInput.toTuple_select_of_write hwrite, packCycle_eq_some]
    exact ⟨h, rfl⟩
  · rename_i heven
    have hread : (unpackCycle n m w).writeEnable = false := by simp [unpackCycle, heven]
    have hlow := mod_two_pow_add w 1 (addrWidth n)
    rw [CycleInput.select_of_read hread, unpackCycle, encodeCmd_rd m (bitField_lt ..), Nat.add_comm (addrWidth n), hlow]
    simp only [Option.some.injEq]
    omega

/-- Settles O1: each operation whose fields fit has a command word, and decoding undoes encoding. -/
theorem decodeOfEncodeIsIdentity : Obligations.DecodeOfEncodeIsIdentity := by
  intro n m
  constructor
  · intro ra hra
    have henc := encodeCmd_rd m hra
    exact ⟨_, encodeCmd_lt henc, henc, decodeCmd_of_encodeCmd henc⟩
  · intro ra wa d hra hwa hd
    have henc := encodeCmd_rdwr hra hwa hd
    exact ⟨_, encodeCmd_lt henc, henc, decodeCmd_of_encodeCmd henc⟩

theorem packCycle_eq_none {n m : Nat} {c : CycleInput} (h : ∀ w, unpackCycle n m w ≠ c) : packCycle n m c = none :=
  Option.eq_none_iff_forall_ne_some.mpr fun w hw => h w (packCycle_eq_some.mp hw).2

/-- Settles O2: the bits are those of the word's fields, and what has no packed form is no number's unpacking. -/
theorem commandWordLayout : Obligations.CommandWordLayout := by
  intro n m
  refine ⟨fun we ra wa wd hra hwa hwd => ?_, fun ra hra => encodeCmd_rd m hra, fun c hc => ?_, fun c z hz hc => ?_⟩
  · have hwe : (packedWord (addrWidth n) we ra wa wd).testBit 0 = we := by
      rw [Nat.testBit_zero, packedWord_mod_two]
      cases we <;> rfl
    refine ⟨_, packCycle_of_lt we hra hwa hwd, rfl, packedWord_lt we hra hwa hwd, hwe,
      fun k hk => ?_, fun k hk => ?_, fun k hk => ?_⟩
    · rw [← testBit_bitField hk, bitField_packedWord_readAddr we hra]
    · rw [← testBit_bitField hk, bitField_packedWord_writeAddr we hra hwa]
    · rw [← testBit_bitField hk, bitField_packedWord_writeData we hra hwa hwd]
  · refine packCycle_eq_none fun w hw => ?_
    subst hw
    simp [unpackCycle] at hc
  · refine packCycle_eq_none fun w hw => ?_
    subst hw
    have hr : (bitField w 1 (addrWidth n) : Int) < 2 ^ addrWidth n := mod_cast bitField_lt ..
    have hw : (bitField w (addrWidth n + 1) (addrWidth n) : Int) < 2 ^ addrWidth n := mod_cast bitField_lt ..
    simp only [unpackCycle, Address.int.injEq] at hc
    omega

/-- Settles O3: a number of `CW` bits decodes to what its unpacking selects. -/
theorem everyCommandWordDecodes : Obligations.EveryCommandWordDecodes := by
  intro n m w
  refine ⟨fun hlt => ?_, decodeCmd_of_le⟩
  have hdec := decodeCmd_of_lt hlt
  exact ⟨_, hdec, decodeCmd_wf hdec, encodeCmd_unpackCycle hlt⟩

/-- Settles O4: each of the four words is the encoding of its operation. -/
theorem specCommandWordsDecode : Obligations.SpecCommandWordsDecode :=
  ⟨decodeCmd_of_encodeCmd (by decide), decodeCmd_of_encodeCmd (by decide), decodeCmd_of_encodeCmd (by decide),
    decodeCmd_of_encodeCmd (by decide)⟩

end Sys2Proof
end

section
/-! SUPPORT. The ports (R41 to R43): the number a list of levels carries, the width of an address port, and what the
pins sample to. -/

namespace Sys2Proof

/-! ## Levels and numbers -/

@[simp] theorem levelsOf_length (width v : Nat) : (levelsOf width v).length = width := by
  simp [levelsOf]

theorem levelsOf_getElem? {width k : Nat} (hk : k < width) (v : Nat) :
    (levelsOf width v)[k]? = some (levelOf (v.testBit k)) := by
  simp [levelsOf, hk]

/-- Bit 0 comes first, then the levels of the number without it. -/
theorem levelsOf_succ (width v : Nat) :
    levelsOf (width + 1) v = levelOf (decide (v % 2 = 1)) :: levelsOf width (v / 2) := by
  simp [levelsOf, List.range_succ_eq_map, Nat.testBit_succ, Nat.testBit_zero]

@[simp] theorem levelsValue_levelOf_cons (b : Bool) (t : List Level) :
    levelsValue (levelOf b :: t) = (levelsValue t).map fun v => 2 * v + b.toNat := by
  cases b <;> rfl

/-- R42, R43: a number that fits the port is read back from its levels. -/
theorem levelsValue_levelsOf {width v : Nat} (hv : v < 2 ^ width) : levelsValue (levelsOf width v) = some v := by
  induction width generalizing v with
  | zero =>
    rw [Nat.pow_zero, Nat.lt_one_iff] at hv
    subst hv
    rfl
  | succ width ih =>
    have hhalf : v / 2 < 2 ^ width := by omega
    have hbit : (decide (v % 2 = 1)).toNat = v % 2 := by
      rcases Nat.mod_two_eq_zero_or_one v with h | h <;> simp [h]
    rw [levelsOf_succ, levelsValue_levelOf_cons, ih hhalf, Option.map_some, hbit, Nat.div_add_mod]

/-- R43: one unknown bit leaves no number. -/
theorem levelsValue_of_unknown {ls : List Level} (h : Level.unknown ∈ ls) : levelsValue ls = none := by
  induction ls with
  | nil => cases h
  | cons l t ih =>
    cases l with
    | unknown => rfl
    | zero => simp [levelsValue, ih (by simpa using h)]
    | one => simp [levelsValue, ih (by simpa using h)]

theorem levelOf_ne_unknown (b : Bool) : levelOf b ≠ .unknown := by
  cases b <;> decide

theorem exists_levelOf {l : Level} (h : l ≠ .unknown) : ∃ b, l = levelOf b := by
  cases l with
  | zero => exact ⟨false, rfl⟩
  | one => exact ⟨true, rfl⟩
  | unknown => exact absurd rfl h

theorem unknown_not_mem_levelsOf (width v : Nat) : Level.unknown ∉ levelsOf width v := by
  simp [levelsOf, levelOf_ne_unknown]

/-- Known levels are those of a number that fits the port. -/
theorem exists_levelsOf {ls : List Level} (h : Level.unknown ∉ ls) :
    ∃ v, v < 2 ^ ls.length ∧ ls = levelsOf ls.length v := by
  induction ls with
  | nil => exact ⟨0, by simp, rfl⟩
  | cons l t ih =>
    obtain ⟨v, hv, hlevels⟩ := ih (List.not_mem_of_not_mem_cons h)
    obtain ⟨b, rfl⟩ := exists_levelOf (List.ne_of_not_mem_cons h).symm
    have hb := b.toNat_lt
    have hhalf : (2 * v + b.toNat) / 2 = v := by omega
    have hbit : decide ((2 * v + b.toNat) % 2 = 1) = b := by
      cases b <;> simp
    refine ⟨2 * v + b.toNat, by simp only [List.length_cons]; omega, ?_⟩
    rw [List.length_cons, levelsOf_succ, hhalf, hbit, ← hlevels]

theorem addressOfLevels_levelsOf {width b : Nat} (hb : b < 2 ^ width) :
    addressOfLevels (levelsOf width b) = .int b := by
  simp [addressOfLevels, levelsValue_levelsOf hb]

theorem addressOfLevels_of_unknown {ls : List Level} (h : Level.unknown ∈ ls) : addressOfLevels ls = .undef := by
  simp [addressOfLevels, levelsValue_of_unknown h]

theorem wordOfLevels_levelsOf {width v : Nat} (hv : v < 2 ^ width) : wordOfLevels (levelsOf width v) = .defined v := by
  simp [wordOfLevels, levelsValue_levelsOf hv]

theorem wordOfLevels_of_unknown {ls : List Level} (h : Level.unknown ∈ ls) : wordOfLevels ls = .undef := by
  simp [wordOfLevels, levelsValue_of_unknown h]

/-- A data port carries a Word of its width. -/
theorem wordOfLevels_fits (ls : List Level) : (wordOfLevels ls).fits ls.length = true := by
  by_cases h : Level.unknown ∈ ls
  · rw [wordOfLevels_of_unknown h]
    rfl
  · obtain ⟨v, hv, hlevels⟩ := exists_levelsOf h
    rw [hlevels, wordOfLevels_levelsOf hv, levelsOf_length]
    exact decide_eq_true hv

/-! ## The width of an address port -/

/-- R42: `addrWidth n` is the least positive number of bits with at least `n` patterns. -/
theorem addrWidth_le_iff {n c : Nat} : addrWidth n ≤ c ↔ 1 ≤ c ∧ n ≤ 2 ^ c := by
  have hmono {k : Nat} (hk : k ≤ c) : 2 ^ k ≤ 2 ^ c := Nat.pow_le_pow_right (by decide) hk
  rw [addrWidth]
  split
  · refine ⟨fun hc => ⟨hc, ?_⟩, And.left⟩
    have := hmono hc
    omega
  · have hlog : Nat.log2 (n - 1) < c ↔ n - 1 < 2 ^ c := Nat.log2_lt (by omega)
    omega

theorem addrWidth_eq_max_clog (n : Nat) : addrWidth n = max 1 (Nat.clog 2 n) :=
  eq_of_forall_ge_iff fun c => by
    rw [addrWidth_le_iff, max_le_iff, Nat.clog_le_iff_le_pow Nat.one_lt_two]

theorem resolve_nat_eq_none {n b : Nat} : Machine.resolve n (.int b) = none ↔ n ≤ b := by
  simp [Machine.resolve]

/-- Settles O5: the least width with `N` patterns is the clog, and every known pattern is that of one number. -/
theorem addressPortCarriesUnsigned : Obligations.AddressPortCarriesUnsigned := by
  intro n _
  have hpattern {ls : List Level} (hlen : ls.length = addrWidth n) (hknown : Level.unknown ∉ ls) :
      ∃ b : Nat, b < 2 ^ addrWidth n ∧ ls = levelsOf (addrWidth n) b ∧ addressOfLevels ls = .int b := by
    obtain ⟨b, hb, hlevels⟩ := exists_levelsOf hknown
    rw [hlen] at hb hlevels
    exact ⟨b, hb, hlevels, hlevels ▸ addressOfLevels_levelsOf hb⟩
  have hinvalid {b : Nat} (hb : b < 2 ^ addrWidth n) :
      Machine.resolve n (addressOfLevels (levelsOf (addrWidth n) b)) = none ↔ n ≤ b := by
    rw [addressOfLevels_levelsOf hb, resolve_nat_eq_none]
  refine ⟨addrWidth_eq_max_clog n, fun b => addressOfLevels_levelsOf, fun ls => hpattern, fun b => hinvalid, ?_, ?_⟩
  · rintro ⟨ls, hlen, hknown, hnone⟩
    obtain ⟨b, hb, rfl, -⟩ := hpattern hlen hknown
    exact Nat.lt_of_le_of_lt ((hinvalid hb).mp hnone) hb
  · intro hn
    exact ⟨_, levelsOf_length _ n, unknown_not_mem_levelsOf _ n, (hinvalid hn).mpr le_rfl⟩

/-! ## What the pins sample to -/

theorem Pins.sample_of_levelOf {n m : Nat} {p : Pins} {b : Bool} (hr : p.rdAddr.length = addrWidth n)
    (hw : p.wrAddr.length = addrWidth n) (hd : p.wrData.length = m) (hwe : p.we = levelOf b) :
    p.sample n m = .ok ⟨addressOfLevels p.rdAddr, b, addressOfLevels p.wrAddr, wordOfLevels p.wrData⟩ := by
  cases b <;> simp [Pins.sample, hr, hw, hd, hwe, levelOf]

theorem Pins.sample_of_unknown {n m : Nat} {p : Pins} (hr : p.rdAddr.length = addrWidth n)
    (hw : p.wrAddr.length = addrWidth n) (hd : p.wrData.length = m) (hwe : p.we = .unknown) :
    p.sample n m = .error .unknownWriteEnable := by
  simp [Pins.sample, hr, hw, hd, hwe]

/-- Whatever the pins sample to, `we` carried its writeEnable. -/
theorem Pins.we_of_sample {n m : Nat} {p : Pins} {c : CycleInput} (h : p.sample n m = .ok c) :
    p.we = levelOf c.writeEnable := by
  unfold Pins.sample at h
  split at h
  · split at h
    · cases h
    · rename_i hwe
      cases h
      exact hwe
    · rename_i hwe
      cases h
      exact hwe
  · cases h

/-- Settles O6: the levels of a word are its bits and read back as it, and pins that stand for an input have a known
`we`. -/
theorem portPatternsOfWords : Obligations.PortPatternsOfWords := by
  refine ⟨fun m v hv => ⟨levelsOf_length m v, fun k hk => levelsOf_getElem? hk v, wordOfLevels_levelsOf hv⟩,
    fun m => rfl, fun ls h => ⟨wordOfLevels_of_unknown h, addressOfLevels_of_unknown h⟩,
    fun n m p c => Pins.we_of_sample, fun n m p hwe c h => ?_⟩
  exact levelOf_ne_unknown c.writeEnable ((Pins.we_of_sample h).symm.trans hwe)

end Sys2Proof
end

section
/-! SUPPORT. From what the host presents to the operation the block performs (R38, R40), in each of the three forms of
a cycle's input, and the written lines (R49, R50). -/

namespace Sys2Proof.Machine

/-- No operation stops the block (R40, R81). -/
theorem exec_next (i : Instr) (s : State) : ∃ t, exec i s = .next t := by
  cases i with
  | rd r => exact ⟨_, exec_rd r s⟩
  | rdwr r w d => exact ⟨_, exec_rdwr r w d s⟩

theorem selectOperation_word {n m w : Nat} {i : Instr} (h : decodeCmd n m w = .ok i) :
    selectOperation n m (.word w) = .ok i := by
  simp [selectOperation, h]

theorem selectOperation_pins {n m : Nat} {p : Pins} {c : CycleInput} (h : p.sample n m = .ok c) :
    selectOperation n m (.pins p) = .ok c.select := by
  simp [selectOperation, h]

theorem selectOperation_pins_error {n m : Nat} {p : Pins} {e : PinError} (h : p.sample n m = .error e) :
    selectOperation n m (.pins p) = .error (.badPins e) := by
  simp [selectOperation, h]

section
variable {s : State} {rest : List Event} (hrun : s.phase = .running)
include hrun

/-- R38, R40: a running block performs the operation that was selected. -/
theorem step_of_select {x : Stimulus} {i : Instr} (he : s.events = .cycle x :: rest)
    (hsel : selectOperation s.depth s.width x = .ok i) (hwf : i.wf s.width = true) :
    step s = exec i (s.setEvents rest) := by
  simp [step, he, fetchOperation, hrun, hsel, hwf]

theorem step_of_select_error {x : Stimulus} {r : Refusal} (he : s.events = .cycle x :: rest)
    (hsel : selectOperation s.depth s.width x = .error r) : step s = .refused r := by
  simp [step, he, fetchOperation, hrun, hsel]

theorem step_tuple {c : CycleInput} (he : s.events = .cycle (.tuple c) :: rest) (hwf : c.wf s.width = true) :
    step s = exec c.select (s.setEvents rest) :=
  step_of_select hrun he rfl (by rwa [CycleInput.select_wf])

theorem step_feed {c : CycleInput} (hwf : c.wf s.width = true) : step (s.feed [c]) = exec c.select s :=
  step_tuple (s := s.feed [c]) (rest := s.events) hrun rfl hwf

end

/-- Settles O22: each form selects its operation, and a command word selects a well-formed one. -/
theorem stepRunsTheSelectedOperation : Obligations.StepRunsTheSelectedOperation := by
  intro s rest hrun
  refine ⟨fun x i => step_of_select hrun, fun c he hwf => ?_, fun w i he hdec => ?_⟩
  · rw [step_tuple hrun he hwf, CycleInput.select]
    cases c.writeEnable <;> rfl
  · exact step_of_select hrun he (selectOperation_word hdec) (decodeCmd_wf hdec)

/-- Settles O23: with write enable false either input selects the same RD. -/
theorem unusedWriteFieldsAreIgnored : Obligations.UnusedWriteFieldsAreIgnored := by
  intro s ra wa wa' wd wd' hrun
  have hstep (a : Address) (d : Word) : step (s.feed [⟨ra, false, a, d⟩]) = exec (.rd ra) s := step_feed hrun rfl
  exact ⟨_, hstep wa wd, hstep wa' wd'⟩

/-- Settles O7: the pins sample to the tuple, so both select its operation, on data that fits the port. -/
theorem pinsRunAsTheirTuple : Obligations.PinsRunAsTheirTuple := by
  intro s p rest b hrun he hr hw hd hwe
  have hwf : CycleInput.wf s.width
      ⟨addressOfLevels p.rdAddr, b, addressOfLevels p.wrAddr, wordOfLevels p.wrData⟩ = true := by
    simp [CycleInput.wf, ← hd, wordOfLevels_fits]
  have hpins := step_of_select hrun he (selectOperation_pins (Pins.sample_of_levelOf hr hw hd hwe))
    (by rwa [CycleInput.select_wf])
  have htuple := step_tuple (s := s.setEvents (.cycle (.tuple _) :: rest)) hrun rfl hwf
  obtain ⟨t, ht⟩ := exec_next _ (s.setEvents rest)
  exact ⟨t, hpins.trans ht, htuple.trans ht⟩

/-- Settles O52: such pins sample to that error, whatever the other levels. -/
theorem unknownWriteEnableIsRefused : Obligations.UnknownWriteEnableIsRefused := by
  intro s p rest hrun he hr hw hd hwe
  exact step_of_select_error hrun he (selectOperation_pins_error (Pins.sample_of_unknown hr hw hd hwe))

/-! ## The written lines -/

/-- R49, R50: a line expands to the canonical input of the operation it selects. -/
theorem toTuple_select_expand (l : Line) : l.expand.select.toTuple = l.expand := by
  cases l <;> rfl

/-- Settles O8: a line's expansion is the input of one operation, which a running block performs. -/
theorem pseudoOperationsExpand : Obligations.PseudoOperationsExpand := by
  refine ⟨fun _ _ => ⟨rfl, rfl⟩, fun _ _ => ⟨rfl, rfl⟩, ⟨rfl, rfl, rfl⟩,
    fun n hn => resolve_eq_some.mpr ⟨rfl, hn⟩, fun l s hrun hwf => ?_⟩
  obtain ⟨t, ht⟩ := exec_next l.expand.select s
  exact ⟨_, t, (toTuple_select_expand l).symm, step_feed hrun hwf, ht⟩

/-- Settles O53, by reading the characters of each line. -/
theorem writtenLinesAreRead : Obligations.WrittenLinesAreRead :=
  ⟨rfl, rfl, rfl, rfl⟩

end Sys2Proof.Machine
end

section
/-! SUPPORT. How the text of the file is cut into lines (R52). -/

namespace Sys2Proof.Machine

/-- Any other character is the next one of the line it stands in. -/
theorem lines_cons_of_ne_lf {c : Char} (hc : c ≠ '\n') {t l : List Char} {ls : List (List Char)}
    (ht : lines t = l :: ls) : lines (c :: t) = (c :: l) :: ls := by
  simp [lines, hc, ht]

/-- A line feed ends the line before it. -/
theorem lines_append_lf {l : List Char} (hl : '\n' ∉ l) (t : List Char) : lines (l ++ '\n' :: t) = l :: lines t := by
  induction l with
  | nil => rfl
  | cons c l ih =>
    obtain ⟨hc, hl⟩ := List.ne_and_not_mem_of_not_mem_cons hl
    exact lines_cons_of_ne_lf hc.symm (ih hl)

/-- Characters after the last line feed form a final line. -/
theorem lines_of_no_lf {l : List Char} (hl : '\n' ∉ l) (hne : l ≠ []) : lines l = [l] := by
  induction l with
  | nil => exact absurd rfl hne
  | cons c l ih =>
    obtain ⟨hc, hl⟩ := List.ne_and_not_mem_of_not_mem_cons hl
    cases l with
    | nil => simp [lines, Ne.symm hc]
    | cons d l => exact lines_cons_of_ne_lf hc.symm (ih hl (List.cons_ne_nil d l))

theorem lines_flatMap_append {ls : List (List Char)} (hls : ∀ l ∈ ls, '\n' ∉ l) (t : List Char) :
    lines (ls.flatMap (· ++ ['\n']) ++ t) = ls ++ lines t := by
  induction ls with
  | nil => rfl
  | cons l ls ih =>
    obtain ⟨hl, hls⟩ := List.forall_mem_cons.mp hls
    simp [lines_append_lf hl, ← ih hls]

/-- Every text is lines that are each ended by a line feed, and a rest without one. -/
theorem exists_flatMap_append (t : List Char) : ∃ (ls : List (List Char)) (last : List Char),
    (∀ l ∈ ls, '\n' ∉ l) ∧ '\n' ∉ last ∧ t = ls.flatMap (· ++ ['\n']) ++ last := by
  induction t with
  | nil => exact ⟨[], [], by simp⟩
  | cons c t ih =>
    obtain ⟨ls, last, hls, hlast, rfl⟩ := ih
    by_cases hc : c = '\n'
    · exact ⟨[] :: ls, last, by simpa using hls, hlast, by simp [hc]⟩
    · cases ls with
      | nil => exact ⟨[], c :: last, by simp, List.not_mem_cons_of_ne_of_not_mem (Ne.symm hc) hlast, rfl⟩
      | cons l ls =>
        obtain ⟨hl, hls⟩ := List.forall_mem_cons.mp hls
        have hcl : '\n' ∉ c :: l := List.not_mem_cons_of_ne_of_not_mem (Ne.symm hc) hl
        exact ⟨(c :: l) :: ls, last, List.forall_mem_cons.mpr ⟨hcl, hls⟩, hlast, rfl⟩

/-- Settles O9: a text's lines are those of its decomposition, with the rest as one more where it is not empty. -/
theorem linesCutAtLineFeeds : Obligations.LinesCutAtLineFeeds := by
  have hended (ls : List (List Char)) (hls : ∀ l ∈ ls, '\n' ∉ l) : lines (ls.flatMap (· ++ ['\n'])) = ls := by
    simpa [lines] using lines_flatMap_append hls []
  have hrest (ls : List (List Char)) (last : List Char) (hls : ∀ l ∈ ls, '\n' ∉ l) (hlast : '\n' ∉ last)
      (hne : last ≠ []) : lines (ls.flatMap (· ++ ['\n']) ++ last) = ls ++ [last] := by
    rw [lines_flatMap_append hls, lines_of_no_lf hlast hne]
  refine ⟨hended, hrest, fun t => ?_⟩
  obtain ⟨ls, last, hls, hlast, rfl⟩ := exists_flatMap_append t
  rcases eq_or_ne last [] with rfl | hne
  · rw [List.append_nil, hended ls hls]
    exact ⟨hls, .inl rfl⟩
  · rw [hrest ls last hls hlast hne]
    refine ⟨by simpa [or_imp, forall_and] using ⟨hls, hlast⟩, .inr ⟨by simp, last.getLast hne, ?_, ?_⟩⟩
    · rw [List.getLast?_append_of_ne_nil _ hne, List.getLast?_eq_some_getLast hne]
    · exact ne_of_mem_of_not_mem (List.getLast_mem hne) hlast

end Sys2Proof.Machine
end

section
/-! SUPPORT. The base-2 reading of a run of digits (R58), its bound, and its reduction to a width (R59, R60). -/

namespace Sys2Proof.Machine

theorem binFrom_eq (acc : Nat) (p : List Char) : binFrom acc p = acc * 2 ^ p.length + bin p := by
  induction p generalizing acc with
  | nil => simp [binFrom, bin]
  | cons c t ih =>
    simp only [bin, binFrom, List.length_cons, ih (2 * acc + digit01 c), ih (2 * 0 + digit01 c)]
    ring

/-- The leftmost digit is the most significant one. -/
theorem bin_cons (c : Char) (t : List Char) : bin (c :: t) = digit01 c * 2 ^ t.length + bin t := by
  rw [bin, binFrom, binFrom_eq, Nat.mul_zero, Nat.zero_add]

theorem bin_append (p t : List Char) : bin (p ++ t) = bin p * 2 ^ t.length + bin t := by
  induction p with
  | nil => simp [bin, binFrom]
  | cons c p ih =>
    rw [List.cons_append, bin_cons, bin_cons, ih, List.length_append]
    ring

theorem digit01_le_one (c : Char) : digit01 c ≤ 1 := by
  rw [digit01]
  split <;> decide

theorem bin_lt (p : List Char) : bin p < 2 ^ p.length := by
  induction p with
  | nil => decide
  | cons c t ih =>
    have hc : digit01 c * 2 ^ t.length ≤ 1 * 2 ^ t.length := Nat.mul_le_mul_right _ (digit01_le_one c)
    rw [bin_cons, List.length_cons, pow_succ]
    omega

/-- R59: a run that fits the width keeps its value. -/
theorem bin_mod_of_length_le {p : List Char} {m : Nat} (h : p.length ≤ m) : bin p % 2 ^ m = bin p :=
  Nat.mod_eq_of_lt ((bin_lt p).trans_le (Nat.pow_le_pow_right two_pos h))

/-- R60: the low `m` bits of a longer run are its last `m` digits. -/
theorem bin_mod_of_le_length {p : List Char} {m : Nat} (h : m ≤ p.length) :
    bin p % 2 ^ m = bin (p.drop (p.length - m)) := by
  have hlen : (p.drop (p.length - m)).length = m := by
    rw [List.length_drop]
    omega
  calc bin p % 2 ^ m
      = (bin (p.take (p.length - m)) * 2 ^ m + bin (p.drop (p.length - m))) % 2 ^ m := by
        rw [← congrArg bin (List.take_append_drop (p.length - m) p), bin_append, hlen]
    _ = bin (p.drop (p.length - m)) := by rw [Nat.mul_add_mod_self_right, bin_mod_of_length_le hlen.le]

/-- Settles O10: each digit stands before the sum of those to its right, and a leading zero adds nothing. -/
theorem runReadsMostSignificantFirst : Obligations.RunReadsMostSignificantFirst := by
  constructor
  · intro p
    induction p with
    | nil => rfl
    | cons c t ih =>
      rw [bin_cons, ih]
      simp [Fin.sum_univ_succ, digit01, Nat.sub_sub, Nat.add_comm 1]
  · intro z p
    induction z with
    | zero => rfl
    | succ z ih => simp [List.replicate_succ, bin_cons, digit01, ih]

end Sys2Proof.Machine
end

section
/-! SUPPORT. parseLine: which lines have a leading run and which Word it loads (R54 to R60). -/

namespace Sys2Proof.Machine

theorem isDigit01_iff {c : Char} : isDigit01 c = true ↔ c = '0' ∨ c = '1' := by
  simp [isDigit01]

/-- R55: a line has no leading run exactly when its first character is missing or no digit. -/
theorem leadingRun_eq_nil {s : List Char} :
    leadingRun s = [] ↔ ¬ ∃ c, s.head? = some c ∧ (c = '0' ∨ c = '1') := by
  cases s with
  | nil => simp [leadingRun]
  | cons c t => simp [leadingRun, List.takeWhile_cons, ← isDigit01_iff]

theorem parseLine_of_run {s : List Char} (h : leadingRun s ≠ []) (m : Nat) :
    parseLine s m = .ok (.defined (bin (leadingRun s) % 2 ^ m)) := by
  simp [parseLine, h]

theorem parseLine_of_no_run {s : List Char} (h : leadingRun s = []) (m : Nat) :
    parseLine s m = .error (.parseError s) := by
  simp [parseLine, h]

/-- Settles O11: the leading run and what follows it make up the line, and it is empty where the line has no first
digit. -/
theorem parseLineUsesLeadingRun : Obligations.ParseLineUsesLeadingRun := by
  intro s m
  refine ⟨⟨s.dropWhile isDigit01, List.takeWhile_append_dropWhile.symm,
    fun c hc => isDigit01_iff.mp (List.mem_takeWhile_imp hc), fun c hc => ?_⟩, fun h => ?_, fun h => ?_⟩
  · have hnot : isDigit01 c ≠ true := by
      simpa [hc] using List.head?_dropWhile_not isDigit01 s
    exact not_or.mp (mt isDigit01_iff.mpr hnot)
  · have hne : leadingRun s ≠ [] := fun hnil => leadingRun_eq_nil.mp hnil h
    exact ⟨hne, parseLine_of_run hne m⟩
  · exact parseLine_of_no_run (leadingRun_eq_nil.mpr h) m

/-! ## Lines that begin with a known run -/

theorem leadingRun_append {p t : List Char} (hp : ∀ c ∈ p, c = '0' ∨ c = '1') :
    leadingRun (p ++ t) = p ++ leadingRun t :=
  List.takeWhile_append_of_pos fun c hc => isDigit01_iff.mpr (hp c hc)

theorem leadingRun_of_digits {p : List Char} (hp : ∀ c ∈ p, c = '0' ∨ c = '1') : leadingRun p = p := by
  simpa [leadingRun] using leadingRun_append (t := []) hp

theorem leadingRun_cons_of_not_digit {x : Char} (h0 : x ≠ '0') (h1 : x ≠ '1') (t : List Char) :
    leadingRun (x :: t) = [] :=
  leadingRun_eq_nil.mpr (by simp [h0, h1])

theorem parseLine_of_digits {p : List Char} (hne : p ≠ []) (hp : ∀ c ∈ p, c = '0' ∨ c = '1') (m : Nat) :
    parseLine p m = .ok (.defined (bin p % 2 ^ m)) := by
  have hrun := leadingRun_of_digits hp
  rw [parseLine_of_run (hrun.symm ▸ hne), hrun]

/-- Settles O12: the line with its tail has the same leading run, and a line that begins with the other character has
none. -/
theorem trailingContentIgnored : Obligations.TrailingContentIgnored := by
  intro p t x m hne hp h0 h1
  have hrun : leadingRun (p ++ x :: t) = p := by
    rw [leadingRun_append hp, leadingRun_cons_of_not_digit h0 h1, List.append_nil]
  have hparse := parseLine_of_digits hne hp m
  refine ⟨?_, hparse, parseLine_of_no_run (leadingRun_cons_of_not_digit h0 h1 p) m⟩
  rw [parseLine_of_run (hrun.symm ▸ hne), hrun, hparse]

/-- Settles O13: the loaded value is that of the run modulo `2 ^ M`. -/
theorem runFittedToWidth : Obligations.RunFittedToWidth := by
  intro p m hne hp
  rw [parseLine_of_digits hne hp m]
  refine ⟨rfl, fun hshort => ?_, fun hlong => ?_, fun hzero => ?_⟩
  · rw [bin_mod_of_length_le hshort]
  · rw [bin_mod_of_le_length hlong.le]
  · rw [hzero, pow_zero, Nat.mod_one]

end Sys2Proof.Machine
end

section
/-! SUPPORT. LOAD over the lines of the file (R51, R62, R66), and what a step refuses where there is no block to run
or nothing to construct (R65, R96). -/

namespace Sys2Proof.Machine

/-! ## The words of a sequence of lines, or its first error -/

theorem loadLines_of_parsed {m : Nat} {ls : List (List Char)} {ws : List Word}
    (h : List.Forall₂ (fun l w => parseLine l m = .ok w) ls ws) : loadLines m ls = .ok ws := by
  induction h with
  | nil => rfl
  | cons hw _ ih => simp [loadLines, hw, ih]

theorem loadLines_of_first_error {m : Nat} {before after : List (List Char)} {l : List Char} {e : Fault}
    (hbefore : ∀ x ∈ before, ∃ w, parseLine x m = .ok w) (hl : parseLine l m = .error e) :
    loadLines m (before ++ l :: after) = .error e := by
  induction before with
  | nil => simp [loadLines, hl]
  | cons x xs ih =>
    obtain ⟨⟨w, hw⟩, hxs⟩ := List.forall_mem_cons.mp hbefore
    simp [loadLines, hw, ih hxs]

/-- A sequence of lines that does not load has a first line that fails, with the same error. -/
theorem loadLines_error {m : Nat} {ls : List (List Char)} {e : Fault} (h : loadLines m ls = .error e) :
    ∃ before l after, ls = before ++ l :: after ∧ (∀ x ∈ before, ∃ w, parseLine x m = .ok w) ∧
      parseLine l m = .error e := by
  induction ls with
  | nil => cases h
  | cons l ls ih =>
    cases hl : parseLine l m with
    | error e' =>
      obtain rfl : e' = e := by simpa [loadLines, hl] using h
      exact ⟨[], l, ls, rfl, by simp, hl⟩
    | ok w =>
      have hls : loadLines m ls = .error e := by
        cases hls : loadLines m ls with
        | error e' => simpa [loadLines, hl, hls] using h
        | ok ws => simp [loadLines, hl, hls] at h
      obtain ⟨before, l', after, rfl, hbefore, hl'⟩ := ih hls
      exact ⟨l :: before, l', after, rfl, List.forall_mem_cons.mpr ⟨⟨w, hl⟩, hbefore⟩, hl'⟩

/-- Settles O14: LOAD is `loadLines` of the text's lines, and each of its two answers says what the lines parse to. -/
theorem loadGivesWordPerLine : Obligations.LoadGivesWordPerLine := by
  refine fun text m => ⟨fun ws => ⟨loadLines_ok, loadLines_of_parsed⟩, fun e => ⟨loadLines_error, ?_⟩⟩
  rintro ⟨before, l, after, htext, hbefore, hl⟩
  rw [load, htext, loadLines_of_first_error hbefore hl]

theorem State.cell_mem_cells {s : State} {z : Nat} (hz : z < s.depth) : s.cell z ∈ s.cells :=
  List.mem_map_of_mem (List.mem_range.mpr hz)

/-- Settles O15: the constructed block's cells are the loaded words. -/
theorem loadedWordsAreDefined : Obligations.LoadedWordsAreDefined := by
  intro text m ws hws
  have hundef := undef_not_mem_of_load hws
  refine ⟨⟨(loadLines_ok hws).length_eq.symm, fun w hw => ?_⟩, ?_⟩
  · exact ⟨ne_of_mem_of_not_mem hw hundef, loadLines_fits hws w hw⟩
  · rintro s p rest hph he hp rfl rfl hlen
    refine ⟨_, (step_construct he).trans (constructBlock_of_load hph hp hws hlen), fun z hz => ?_⟩
    have hcell := State.cell_mem_cells (s := (s.setEvents rest).install p (Memory.ofWords ws)) hz
    rw [State.cells_install _ hlen] at hcell
    exact ne_of_mem_of_not_mem hcell hundef

/-- Settles O16: a line of `M` digits parses to its own value, which fits the width. -/
theorem exactFileLoadsItsValues : Obligations.ExactFileLoadsItsValues := by
  intro text n m hm hn hlines
  have hparse (l : List Char) (hl : l ∈ lines text) : parseLine l m = .ok (.defined (bin l)) := by
    obtain ⟨hlen, hdigits⟩ := hlines l hl
    rw [parseLine_of_digits (List.length_pos_iff.mp (hlen.symm ▸ hm)) hdigits, bin_mod_of_length_le hlen.le]
  refine ⟨_, loadLines_of_parsed ?_, by rw [List.length_map, hn], rfl, fun l hl => (hlines l hl).1 ▸ bin_lt l⟩
  exact List.forall₂_map_right_iff.mpr (List.forall₂_same.mpr hparse)

/-! ## No cycle without a block, and no second construction -/

theorem fetchOperation_of_not_running {s : State} (h : s.phase ≠ .running) (x : Stimulus) :
    fetchOperation s x = .error .noBlock := by
  cases hph : s.phase with
  | running => exact absurd hph h
  | unbuilt => simp [fetchOperation, hph]
  | ended => simp [fetchOperation, hph]

theorem endRun_of_not_running {s : State} (h : s.phase ≠ .running) : endRun s = .refused .noBlock := by
  cases hph : s.phase with
  | running => exact absurd hph h
  | unbuilt => simp [endRun, hph]
  | ended => simp [endRun, hph]

theorem constructBlock_of_constructed {s : State} (h : s.phase ≠ .unbuilt) (p : Params) :
    constructBlock p s = .refused .alreadyConstructed := by
  cases hph : s.phase with
  | unbuilt => exact absurd hph h
  | running => simp [constructBlock, hph]
  | ended => simp [constructBlock, hph]

theorem constructBlock_of_zero_depth {s : State} {p : Params} (hph : s.phase = .unbuilt) (hp : p.depth = 0) :
    constructBlock p s = .refused .zeroDepth := by
  simp [constructBlock, hph, Params.wf, hp]

/-- Settles O19, one part for each refusal. -/
theorem nothingRunsWithoutABlock : Obligations.NothingRunsWithoutABlock := by
  refine fun s p x rest => ⟨fun hph he => ?_, fun hph he => ?_, fun hph he hp => ?_⟩
  · rcases he with he | he
    · simp [step, he, fetchOperation_of_not_running hph]
    · simp [step, he, endRun_of_not_running (s := s.setEvents rest) hph]
  · exact (step_construct he).trans (constructBlock_of_constructed (s := s.setEvents rest) hph p)
  · exact (step_construct he).trans (constructBlock_of_zero_depth (s := s.setEvents rest) hph hp)

end Sys2Proof.Machine
end

section
/-! SUPPORT. The two ports of a cycle, each read as a function of the address: the read port gives the cell a valid
address names (R69, R70), the write port updates the contents at one cell or makes all of them Undefined (R71, R72);
and the statements about one RD or RDWR that follow. -/

namespace Sys2Proof.Machine

/-! ## Valid and invalid addresses -/

theorem resolve_int_of_lt {n z : Nat} (hz : z < n) : resolve n (.int z) = some z :=
  resolve_eq_some.mpr ⟨rfl, hz⟩

/-- An address is invalid when it is the number of no cell. -/
theorem resolve_eq_none {n : Nat} {a : Address} : resolve n a = none ↔ ¬ ∃ z : Nat, a = .int z ∧ z < n := by
  simp only [Option.eq_none_iff_forall_ne_some, ne_eq, resolve_eq_some, not_exists]

/-- R70, R72: a number is an invalid address when it is negative or at least the depth. -/
theorem resolve_int_eq_none {n : Nat} {z : Int} : resolve n (.int z) = none ↔ z < 0 ∨ (n : Int) ≤ z := by
  simp only [resolve, ite_eq_right_iff, reduceCtorEq, imp_false]
  omega

/-! ## The read port -/

theorem memRead_int {s : State} {z : Nat} (hz : z < s.depth) : memRead s (.int z) = s.cell z :=
  memRead_valid (resolve_int_of_lt hz)

/-- R69, R70, split as R77 and R78 write it: the cell for a valid address, Undefined for an invalid one. -/
theorem memRead_clauses (s : State) (r : Address) :
    (∀ z : Nat, r = .int z → z < s.depth → memRead s r = s.cell z) ∧
      ((¬ ∃ z : Nat, r = .int z ∧ z < s.depth) → memRead s r = .undef) := by
  refine ⟨?_, fun h => memRead_invalid (resolve_eq_none.mpr h)⟩
  rintro z rfl hz
  exact memRead_int hz

/-! ## The write port -/

/-- R71: a write through a valid address updates the contents at its cell. -/
theorem memWrite_cell {s : State} {w : Address} {y : Nat} (hs : s.mem.Pairwise (fun c d => c.1 < d.1))
    (hw : resolve s.depth w = some y) (d : Word) : (memWrite s w d).cell = Function.update s.cell y d := by
  refine Function.eq_update_iff.mpr ⟨?_, fun k hk => memWrite_cell_other hw hk d⟩
  rw [memWrite_valid hw]
  exact Memory.get_set_same hs y d

/-- R72: a write through an invalid address leaves Undefined in every cell. -/
theorem memWrite_cell_invalid {s : State} {w : Address} (hw : resolve s.depth w = none) (d : Word) (k : Nat) :
    (memWrite s w d).cell k = .undef := by
  rw [memWrite_invalid hw]
  exact Memory.get_poison k

/-- The write port leaves the cells listed in rising order, also for data that is no Word of the width. -/
theorem memWrite_sorted {s : State} (hs : s.mem.Pairwise (fun c d => c.1 < d.1)) (w : Address) (d : Word) :
    (memWrite s w d).mem.Pairwise (fun c d => c.1 < d.1) := by
  cases hw : resolve s.depth w with
  | none => rw [memWrite_invalid hw]; exact List.Pairwise.nil
  | some y => rw [memWrite_valid hw]; exact Memory.set_sorted hs y d

@[simp] theorem latchOutput_cells (raw : Word) (s : State) : (latchOutput raw s).cells = s.cells := rfl

/-- R71 over the array as its `N` Words. -/
theorem memWrite_cells {s : State} {w : Address} {y : Nat} (hs : s.mem.Pairwise (fun c d => c.1 < d.1))
    (hw : resolve s.depth w = some y) (d : Word) : (memWrite s w d).cells = s.cells.set y d := by
  refine List.ext_getElem (by simp) fun k _ _ => ?_
  simp [State.cells, memWrite_cell hs hw, Function.update_apply, List.getElem_set, eq_comm]

/-- R72 over the array as its `N` Words. -/
theorem memWrite_cells_invalid {s : State} {w : Address} (hw : resolve s.depth w = none) (d : Word) :
    (memWrite s w d).cells = List.replicate s.depth .undef := by
  simp [State.cells, memWrite_cell_invalid hw, List.eq_replicate_iff]

/-! ## One RD, one RDWR -/

/-- Settles O25: RD latches the read port and has no write. -/
theorem rdReadsIntoTheRegister : Obligations.RdReadsIntoTheRegister := by
  intro r s
  obtain ⟨hvalid, hinvalid⟩ := memRead_clauses s r
  exact ⟨_, exec_rd r s, rfl, hvalid, hinvalid, rfl, fun _ _ => rfl⟩

/-- Settles O26: the read port on the state before the write, the write port for the cells after. -/
theorem rdwrReadsThenWrites : Obligations.RdwrReadsThenWrites := by
  intro r w d s hs
  obtain ⟨hvalid, hinvalid⟩ := memRead_clauses s r
  refine ⟨_, exec_rdwr r w d s, by simp, hvalid, hinvalid, ?_, fun hw k _ => ?_⟩
  · rintro y rfl hy
    have hcell := memWrite_cell hs.1 (resolve_int_of_lt hy) d
    exact Function.eq_update_iff.mp hcell
  · exact memWrite_cell_invalid (resolve_eq_none.mpr hw) d k

/-- Settles O30: every such address is invalid, and RD and RDWR latch the same read. -/
theorem invalidWritePoisonsTheArray : Obligations.InvalidWritePoisonsTheArray := by
  intro r w d s hw
  have hnone : resolve s.depth w = none := by
    rcases hw with rfl | ⟨z, rfl, hz⟩
    · rfl
    · exact resolve_int_eq_none.mpr hz
  exact ⟨_, _, exec_rdwr r w d s, exec_rd r s, rfl, memWrite_cells_invalid hnone d, by simp⟩

/-- Settles O32: the read port sees the state before the write, and in the next cycle the updated cell. -/
theorem sameCellReadReturnsOldContent : Obligations.SameCellReadReturnsOldContent := by
  intro z d s hs hz
  have hold : memRead s (.int z) = s.cell z := memRead_int hz
  have hnew : (memWrite s (.int z) d).cell z = d := by
    rw [memWrite_cell hs.1 (resolve_int_of_lt hz), Function.update_self]
  have hnext : memRead (memWrite s (.int z) d) (.int z) = d :=
    (memRead_int (by simpa using hz)).trans hnew
  refine ⟨_, _, exec_rdwr _ _ d s, hold, hnew, exec_rd _ _, hnext, by simp [hold], fun w d' => ?_⟩
  exact ⟨_, exec_rdwr _ w d' s, hold⟩

/-- Settles O33: two updates of one cell, and one update of a poisoned array. -/
theorem undefinedDataIsStoredAndReplaced : Obligations.UndefinedDataIsStoredAndReplaced := by
  intro r r' z v s hs hz
  have hvalid : resolve s.depth (.int z) = some z := resolve_int_of_lt hz
  have hundef := memWrite_cell hs.1 hvalid .undef
  have hdefined (w : Address) (d : Word) :
      (memWrite (latchOutput (memRead s r) (memWrite s w d)) (.int z) (.defined v)).cell =
        Function.update (memWrite s w d).cell z (.defined v) :=
    memWrite_cell (s := latchOutput _ _) (memWrite_sorted hs.1 w d) (by simpa using hvalid) _
  constructor
  · refine ⟨_, _, exec_rdwr r _ _ s, ?_, fun k hk => ?_, exec_rdwr r' _ _ _, ?_, fun k hk => ?_⟩
    · simp [hundef]
    · simp [hundef, hk]
    · simp [hdefined]
    · simp [hdefined, hundef, hk]
  · refine ⟨_, _, exec_rdwr r _ _ s, exec_rdwr r' _ _ _, ?_, fun k _ hk => ?_⟩
    · simp [hdefined]
    · simp [hdefined, memWrite_cell_invalid (w := .undef) rfl, hk]

end Sys2Proof.Machine
end

section
/-! SUPPORT. One cycle as one equation, for both operations and for every CycleInput: the read port goes to the
register and the write port, where write enable is true, gives the array (R76); with the statements about a cycle of a
running block, and the construction before the first one (R67). -/

namespace Sys2Proof.Machine

/-! ## The equation of a cycle -/

/-- R71, R73: the state after the write port of a cycle, before the output register takes the read result. -/
def State.afterWrite (s : State) (c : CycleInput) : State :=
  if c.writeEnable then memWrite s c.writeAddr c.writeData else s

theorem State.afterWrite_of_read {c : CycleInput} (h : c.writeEnable = false) (s : State) : s.afterWrite c = s := by
  simp [State.afterWrite, h]

theorem State.afterWrite_of_write {c : CycleInput} (h : c.writeEnable = true) (s : State) :
    s.afterWrite c = memWrite s c.writeAddr c.writeData := by
  simp [State.afterWrite, h]

/-- The write port of a cycle changes the array alone. -/
theorem State.afterWrite_eq (s : State) (c : CycleInput) : s.afterWrite c = s.setMem (s.afterWrite c).mem := by
  cases h : c.writeEnable with
  | false => rw [State.afterWrite_of_read h]; rfl
  | true => rw [State.afterWrite_of_write h]; exact memWrite_eq s _ _

@[simp] theorem State.afterWrite_q (s : State) (c : CycleInput) : (s.afterWrite c).q = s.q := by
  rw [State.afterWrite_eq]; rfl

@[simp] theorem State.afterWrite_emitted (s : State) (c : CycleInput) : (s.afterWrite c).emitted = s.emitted := by
  rw [State.afterWrite_eq]; rfl

theorem exec_select (c : CycleInput) (s : State) :
    exec c.select s = .next (latchOutput (memRead s c.readAddr) (s.afterWrite c)) := by
  obtain ⟨r, we, w, d⟩ := c
  cases we with
  | false => exact exec_rd r s
  | true => exact exec_rdwr r w d s

theorem exec_eq (i : Instr) (s : State) :
    exec i s = .next (latchOutput (memRead s i.toTuple.readAddr) (s.afterWrite i.toTuple)) := by
  rw [← exec_select, Instr.select_toTuple]

/-- R76: the next state of a cycle whose input is admitted. -/
theorem step_feed_next {s : State} {c : CycleInput} (hrun : s.phase = .running) (hwf : c.wf s.width = true) :
    step (s.feed [c]) = .next (latchOutput (memRead s c.readAddr) (s.afterWrite c)) :=
  (step_feed hrun hwf).trans (exec_select c s)

/-- All a cycle can answer as a next state, whether or not its input was known to be admitted. -/
theorem step_feed_cases {s t : State} {c : CycleInput} (h : step (s.feed [c]) = .next t) :
    s.phase = .running ∧ t = latchOutput (memRead s c.readAddr) (s.afterWrite c) := by
  obtain ⟨_, _, _, he, -⟩ | ⟨_, he, -⟩ | ⟨x, rest, i, he, hrun, hsel, -, hx⟩ := step_next h
  · cases he
  · cases he
  · cases he
    cases hsel
    cases (exec_select c s).symm.trans hx
    exact ⟨hrun, rfl⟩

/-- R75: what a cycle emits and what it leaves in the register. -/
theorem step_feed_output {s t : State} {c : CycleInput} (h : step (s.feed [c]) = .next t) :
    t.emitted = s.emitted ++ [s.q] ∧ t.q = memRead s c.readAddr := by
  obtain ⟨-, rfl⟩ := step_feed_cases h
  simp

/-! ## Statements about a cycle -/

/-- Settles O24: an admitted input has the next state of its equation, in which no operation ends the run. -/
theorem noCycleInputStopsTheBlock : Obligations.NoCycleInputStopsTheBlock := by
  refine ⟨exec_next, fun s c hrun hwf => ⟨_, step_feed_next hrun hwf, ?_⟩⟩
  obtain ⟨hphase, -⟩ := exec_frame (exec_select c s)
  exact hphase.trans hrun

/-- Settles O27: both operations latch the read port, and the array after them is that of the write port, which has no
read address. -/
theorem readResultByAddress : Obligations.ReadResultByAddress := by
  intro i s
  refine ⟨_, exec_eq i s, fun ha => ?_, fun z ha hz => ?_, fun z ha h0 hz => ?_, fun hwe => ?_, fun r' u hu => ?_⟩
  · rw [latchOutput_q, ha, memRead_invalid rfl]
  · rw [latchOutput_q, ha, memRead_invalid (resolve_int_eq_none.mpr hz)]
  · lift z to Nat using h0
    rw [latchOutput_q, ha, memRead_int (by omega), Int.toNat_natCast]
  · rw [latchOutput_mem, State.afterWrite_of_read hwe]
  · cases i with
    | rd r => cases (exec_rd r' s).symm.trans hu; rfl
    | rdwr r w d => cases (exec_rdwr r' w d s).symm.trans hu; rfl

/-- Settles O29: the write port replaces its one word, and a cycle without a write leaves the array. -/
theorem validWriteReplacesOneCell : Obligations.ValidWriteReplacesOneCell := by
  constructor
  · intro r z d s hs hz
    exact ⟨_, exec_rdwr r _ d s, memWrite_cells hs.1 (resolve_int_of_lt hz) d⟩
  · intro c s hrun hwe
    refine ⟨_, step_feed_next hrun (by simp [CycleInput.wf, hwe]), ?_⟩
    rw [State.afterWrite_of_read hwe]
    exact ⟨rfl, rfl⟩

/-- Settles O31: both operations latch the same read port; a constructed block has emitted nothing and holds Undefined
in its register. -/
theorem outputIsThePreviousReadResult : Obligations.OutputIsThePreviousReadResult := by
  intro r w d s
  refine ⟨_, _, exec_rd r s, exec_rdwr r w d s, rfl, by simp, rfl, rfl, fun c v _ => step_feed_output,
    fun p c t₀ v hconstruct hcycle => ?_⟩
  obtain ⟨-, -, ws, -, -, rfl⟩ := constructBlock_next ((step_construct rfl).symm.trans hconstruct)
  obtain ⟨hemitted, -⟩ := step_feed_output hcycle
  exact hemitted

/-! ## The spec's step function over `N` Words -/

/-- The spec's read result, by the cell the address names. -/
theorem Block.raw_cells (s : State) (q : Word) (a : Address) :
    Block.raw s.depth ⟨s.cells, q⟩ a = memRead s a := by
  cases h : resolve s.depth a with
  | none =>
    rw [memRead_invalid h]
    cases a with
    | undef => rfl
    | int z => exact if_neg (by have := resolve_int_eq_none.mp h; omega)
  | some z =>
    obtain ⟨rfl, hz⟩ := resolve_eq_some.mp h
    simp [memRead_valid h, Block.raw, State.cells, hz]

/-- The spec's array after a cycle is that of the write port. -/
theorem Block.memAfter_cells {s : State} (hs : s.mem.Pairwise (fun c d => c.1 < d.1)) (q : Word) (c : CycleInput) :
    Block.memAfter s.depth ⟨s.cells, q⟩ c = (s.afterWrite c).cells := by
  obtain ⟨r, we, w, d⟩ := c
  cases we with
  | false => rfl
  | true =>
    rw [State.afterWrite_of_write rfl]
    cases h : resolve s.depth w with
    | none =>
      rw [memWrite_cells_invalid h]
      cases w with
      | undef => rfl
      | int z => exact if_neg (by have := resolve_int_eq_none.mp h; omega)
    | some y =>
      obtain ⟨rfl, hy⟩ := resolve_eq_some.mp h
      rw [memWrite_cells hs h]
      simp [Block.memAfter, hy]

/-- Settles O36: the ports of the machine are those of the spec's step function, and a cycle changes nothing else. -/
theorem cycleIsTheStepFunction : Obligations.CycleIsTheStepFunction := by
  intro s c hs hrun hwf
  have hmem := Block.memAfter_cells hs.array.1 s.q c
  have hraw := Block.raw_cells s s.q c.readAddr
  refine ⟨_, step_feed_next hrun hwf, by simp [Block.step, hmem, hraw], ?_⟩
  rw [State.afterWrite_eq]
  rfl

/-! ## The construction before the first cycle -/

theorem constructBlock_of_mismatch {s : State} {p : Params} {ws : List Word} (hph : s.phase = .unbuilt)
    (hp : 1 ≤ p.depth) (hws : load p.initText p.width = .ok ws) (hlen : ws.length ≠ p.depth) :
    constructBlock p s = .fault (.depthMismatch p.depth ws.length) := by
  simp [constructBlock, constructArray, abortConstruction, Params.wf, hph, hp, hws, hlen]

/-- Settles O17: a file that loads constructs its block or is refused by its number of lines. -/
theorem constructionFillsTheArray : Obligations.ConstructionFillsTheArray := by
  intro s p rest ws hph he hp hws
  rw [step_construct he]
  refine ⟨constructBlock_of_mismatch hph hp hws, fun hlen => ?_⟩
  have hcells := State.cells_install (s.setEvents rest) hlen
  exact ⟨_, constructBlock_of_load hph hp hws hlen, rfl, hcells, rfl, rfl, rfl, rfl, rfl, rfl⟩

end Sys2Proof.Machine
end

section
/-! SUPPORT. The cycle of a running block as a function of its state and its CycleInput (R76), and a run as its
iteration over the input stream (R82): what a block consumes, and that it answers one output for each input (R83). -/

namespace Sys2Proof.Machine

/-! ## One cycle as a function -/

/-- R76: the state after the cycle of an input. -/
def State.cycle (s : State) (c : CycleInput) : State :=
  latchOutput (memRead s c.readAddr) (s.afterWrite c)

/-- All a cycle can change: the array, the register and what has been emitted. -/
theorem State.cycle_eq (s : State) (c : CycleInput) :
    s.cycle c = { s with mem := (s.cycle c).mem, q := (s.cycle c).q, emitted := (s.cycle c).emitted } := by
  rw [State.cycle, State.afterWrite_eq]
  rfl

section
variable (s : State) (c : CycleInput)

@[simp] theorem State.cycle_phase : (s.cycle c).phase = s.phase := by rw [State.cycle_eq]
@[simp] theorem State.cycle_depth : (s.cycle c).depth = s.depth := by rw [State.cycle_eq]
@[simp] theorem State.cycle_width : (s.cycle c).width = s.width := by rw [State.cycle_eq]
@[simp] theorem State.cycle_events : (s.cycle c).events = s.events := by rw [State.cycle_eq]
@[simp] theorem State.cycle_q : (s.cycle c).q = memRead s c.readAddr := rfl
@[simp] theorem State.cycle_emitted : (s.cycle c).emitted = s.emitted ++ [s.q] := by simp [State.cycle]

theorem State.cycle_mem : (s.cycle c).mem = (s.afterWrite c).mem := rfl
theorem State.cycle_cell (k : Nat) : (s.cycle c).cell k = (s.afterWrite c).cell k := rfl

end

theorem memWrite_setEvents (s : State) (es : List Event) (a : Address) (d : Word) :
    memWrite (s.setEvents es) a d = (memWrite s a d).setEvents es := by
  cases h : resolve s.depth a with
  | none => rw [memWrite_invalid h, memWrite_invalid (s := s.setEvents es) h]; rfl
  | some z => rw [memWrite_valid h, memWrite_valid (s := s.setEvents es) h]; rfl

theorem State.afterWrite_setEvents (s : State) (es : List Event) (c : CycleInput) :
    (s.setEvents es).afterWrite c = (s.afterWrite c).setEvents es := by
  cases h : c.writeEnable with
  | false => simp only [State.afterWrite_of_read h]
  | true => simp only [State.afterWrite_of_write h, memWrite_setEvents]

/-- A cycle does not see the inputs that follow it (R87). -/
theorem State.cycle_feed (s : State) (cs : List CycleInput) (c : CycleInput) :
    (s.feed cs).cycle c = (s.cycle c).feed cs := by
  rw [State.feed, State.feed, State.cycle_events, State.cycle, State.afterWrite_setEvents]
  rfl

theorem step_feed_cons {s : State} {c : CycleInput} (hrun : s.phase = .running) (hwf : c.wf s.width = true)
    (cs : List CycleInput) : step (s.feed (c :: cs)) = .next ((s.cycle c).feed cs) := by
  rw [← State.cycle_feed]
  exact step_feed_next (s := s.feed cs) hrun hwf

/-! ## The iteration over an input stream -/

/-- R82: the state after the cycles of an input stream. -/
def State.cycles (s : State) (cs : List CycleInput) : State :=
  cs.foldl State.cycle s

@[simp] theorem State.cycles_nil (s : State) : s.cycles [] = s := rfl

@[simp] theorem State.cycles_cons (s : State) (c : CycleInput) (cs : List CycleInput) :
    s.cycles (c :: cs) = (s.cycle c).cycles cs := rfl

theorem State.cycles_append (s : State) (before after : List CycleInput) :
    s.cycles (before ++ after) = (s.cycles before).cycles after :=
  List.foldl_append

/-- What holds at the start and is kept by the cycle of every input of the stream holds after the stream. -/
theorem State.cycles_keeps {P : State → Prop} {s : State} {cs : List CycleInput} (hs : P s)
    (hcycle : ∀ t, P t → ∀ c ∈ cs, P (t.cycle c)) : P (s.cycles cs) :=
  List.foldlRecOn cs State.cycle hs hcycle

section
variable (s : State) (cs : List CycleInput)

@[simp] theorem State.cycles_phase : (s.cycles cs).phase = s.phase :=
  State.cycles_keeps (P := (·.phase = s.phase)) rfl fun t ht c _ => (t.cycle_phase c).trans ht

@[simp] theorem State.cycles_depth : (s.cycles cs).depth = s.depth :=
  State.cycles_keeps (P := (·.depth = s.depth)) rfl fun t ht c _ => (t.cycle_depth c).trans ht

@[simp] theorem State.cycles_events : (s.cycles cs).events = s.events :=
  State.cycles_keeps (P := (·.events = s.events)) rfl fun t ht c _ => (t.cycle_events c).trans ht

end

/-- R82, R83: a running block consumes every admitted stream, and its state is then the iterated one. -/
theorem consumes_cycles {s : State} {cs : List CycleInput} (hrun : s.phase = .running) (hcs : Admitted s.width cs) :
    Consumes s cs (s.cycles cs) := by
  induction cs generalizing s with
  | nil => rfl
  | cons c cs ih =>
    obtain ⟨hc, hcs⟩ := List.forall_mem_cons.mp hcs
    have hrest : Consumes (s.cycle c) cs ((s.cycle c).cycles cs) := ih (by simpa using hrun) (by simpa using hcs)
    exact (run_of_next _ (step_feed_cons hrun hc cs)).trans hrest

/-- A state in which a stream has been consumed is the iterated one, whether or not the stream was known to be
admitted. -/
theorem eq_cycles_of_consumes {s t : State} {cs : List CycleInput} (h : Consumes s cs t) : t = s.cycles cs := by
  induction cs generalizing s with
  | nil => cases h; rfl
  | cons c cs ih =>
    obtain ⟨s', hstep, hrun⟩ := run_succ_next h
    obtain ⟨-, rfl⟩ := step_feed_cases (s := s.feed cs) hstep
    have hrest : Consumes (s.cycle c) cs t := by
      rw [Consumes, ← State.cycle_feed]
      exact hrun
    exact ih hrest

/-! ## The outputs of a stream -/

theorem State.cycles_emitted (s : State) (cs : List CycleInput) :
    ∃ out, out.length = cs.length ∧ (s.cycles cs).emitted = s.emitted ++ out := by
  induction cs generalizing s with
  | nil => exact ⟨[], rfl, by simp⟩
  | cons c cs ih =>
    obtain ⟨out, hlen, hout⟩ := ih (s.cycle c)
    exact ⟨s.q :: out, by simp [hlen], by simp [hout]⟩

/-- R75: the output of an input is what the register holds when the inputs before it have been consumed. -/
theorem State.cycles_output (s : State) (before after : List CycleInput) (c : CycleInput) :
    (s.cycles (before ++ c :: after)).emitted[s.emitted.length + before.length]? = some (s.cycles before).q := by
  obtain ⟨out, hlen, hout⟩ := s.cycles_emitted before
  obtain ⟨rest, -, hrest⟩ := ((s.cycles before).cycle c).cycles_emitted after
  rw [State.cycles_append, State.cycles_cons, hrest, State.cycle_emitted, hout, ← hlen]
  simp

/-- R85: the output of an input is the read result of the input before it. -/
theorem State.cycles_output_succ (s : State) (before after : List CycleInput) (c c' : CycleInput) :
    (s.cycles (before ++ c :: c' :: after)).emitted[s.emitted.length + before.length + 1]? =
      some (memRead (s.cycles before) c.readAddr) := by
  simpa [State.cycles_append, Nat.add_assoc] using s.cycles_output (before ++ [c]) after c'

/-- Settles O44: the iterated state, whose outputs grow by one in each cycle. -/
theorem oneOutputPerInput : Obligations.OneOutputPerInput := by
  intro s cs hrun hcs
  exact ⟨_, consumes_cycles hrun hcs, by simpa using hrun, by simp, s.cycles_emitted cs⟩

/-- Settles O47: the read result of a cycle is in the register when the next cycle emits it. -/
theorem outputLagsByOneCycle : Obligations.OutputLagsByOneCycle := by
  intro s before after c c' hrun hadm
  have hbefore : Admitted s.width before := fun x hx => hadm x (List.mem_append_left _ hx)
  exact ⟨_, _, consumes_cycles hrun hbefore, consumes_cycles hrun hadm, s.cycles_output_succ before after c c'⟩

/-- Settles O50: the read port gives Undefined there, and the array is that of the write port alone. -/
theorem undefinedReadAddressYieldsUndefined : Obligations.UndefinedReadAddressYieldsUndefined := by
  intro s c c' hrun hc hc' hread
  have hfirst : Admitted s.width [c] := List.forall_mem_singleton.mpr hc
  have hboth : Admitted s.width [c, c'] := List.forall_mem_cons.mpr ⟨hc, List.forall_mem_singleton.mpr hc'⟩
  refine ⟨_, _, consumes_cycles hrun hfirst, consumes_cycles hrun hboth, ?_, fun hwe => ?_, fun hwe => ?_⟩
  · exact (s.cycles_output_succ [] [] c c').trans (congrArg some (memRead_invalid hread))
  · rw [State.cycles_cons, State.cycles_nil, State.cycle_mem, State.afterWrite_of_read hwe]
  · rw [State.cycles_cons, State.cycles_nil, State.cycle_mem, State.afterWrite_of_write hwe]

end Sys2Proof.Machine
end

section
/-! SUPPORT. What a read of the array depends on: never the write of its own cycle, nor a later write to another cell
(R89), and over a run the write fields of the earlier inputs alone (R87). -/

namespace Sys2Proof.Machine

/-- A valid write through another address leaves the read port's answer, also where the read address is invalid. -/
theorem memRead_memWrite_other {s : State} {r w : Address} {y : Nat} (hw : resolve s.depth w = some y) (hne : r ≠ w)
    (d : Word) : memRead (memWrite s w d) r = memRead s r := by
  cases hr : resolve s.depth r with
  | none => rw [memRead_invalid hr, memRead_invalid (by simpa using hr)]
  | some k =>
    have hk : k ≠ y := by
      rintro rfl
      exact hne ((resolve_eq_some.mp hr).1.trans (resolve_eq_some.mp hw).1.symm)
    rw [memRead_valid hr, memRead_valid (by simpa using hr), memWrite_cell_other hw hk]

/-- Settles O34: both operations latch the same read port, and the next read is through an address the write left
alone. -/
theorem differentAddressesDoNotDisturb : Obligations.DifferentAddressesDoNotDisturb := by
  refine fun r w d s => ⟨_, _, exec_rd r s, exec_rdwr r w d s, rfl, ?_⟩
  rintro y rfl hy hne
  exact memRead_memWrite_other (resolve_int_of_lt hy) hne d

/-- R87: two inputs with the same write fields, whatever their read addresses. -/
abbrev SameWrites (a b : CycleInput) : Prop :=
  a.writeEnable = b.writeEnable ∧ a.writeAddr = b.writeAddr ∧ a.writeData = b.writeData

section
variable {s t : State} (hdepth : s.depth = t.depth) (hmem : s.mem = t.mem)
include hdepth hmem

/-- R69: the read port sees the depth and the array alone. -/
theorem memRead_congr (a : Address) : memRead s a = memRead t a := by
  simp only [memRead, State.cell, hdepth, hmem]

/-- R71, R72: the array after a write is made from the depth and the array alone. -/
theorem memWrite_mem_congr (a : Address) (d : Word) : (memWrite s a d).mem = (memWrite t a d).mem := by
  cases h : resolve s.depth a with
  | none => rw [memWrite_invalid h, memWrite_invalid (hdepth ▸ h)]; rfl
  | some z => rw [memWrite_valid h, memWrite_valid (hdepth ▸ h), State.setMem_mem, State.setMem_mem, hmem]

/-- The array after a cycle depends on the write fields of its input, not on the read address. -/
theorem State.cycle_mem_congr {a b : CycleInput} (h : SameWrites a b) : (s.cycle a).mem = (t.cycle b).mem := by
  obtain ⟨hwe, hwa, hwd⟩ := h
  rw [State.cycle_mem, State.cycle_mem]
  cases hb : b.writeEnable with
  | false => rw [State.afterWrite_of_read (hwe.trans hb), State.afterWrite_of_read hb, hmem]
  | true =>
    rw [State.afterWrite_of_write (hwe.trans hb), State.afterWrite_of_write hb, hwa, hwd,
      memWrite_mem_congr hdepth hmem]

/-- The array after a stream depends on the write fields of its inputs, not on the read addresses. -/
theorem State.cycles_mem_congr {as bs : List CycleInput} (h : List.Forall₂ SameWrites as bs) :
    (s.cycles as).mem = (t.cycles bs).mem := by
  induction h generalizing s t with
  | nil => exact hmem
  | cons hab _ ih => exact ih (by simpa using hdepth) (State.cycle_mem_congr hdepth hmem hab)

end

/-- Settles O48: both outputs are reads of one address in arrays that the same write fields made. -/
theorem outputsAreCausal : Obligations.OutputsAreCausal := by
  intro s t t' before before' after after' c c' d d' _ hwrites hread ht ht'
  obtain rfl := eq_cycles_of_consumes ht
  obtain rfl := eq_cycles_of_consumes ht'
  have hmem : (s.cycles before).mem = (s.cycles before').mem := State.cycles_mem_congr rfl rfl hwrites
  have hout := s.cycles_output_succ before after c d
  have hout' := hwrites.length_eq ▸ s.cycles_output_succ before' after' c' d'
  rw [hout, hout', ← hread, memRead_congr (by simp) hmem]
  exact ⟨rfl, by simp⟩

end Sys2Proof.Machine
end

section
/-! SUPPORT. One cell over a run: an input that does not hit it leaves it, and the last input that hits it decides
what it holds (R88, R91, R92). -/

namespace Sys2Proof.Machine

variable {s : State} {z : Nat}

theorem State.cycle_cell_of_not_hit {c : CycleInput} (h : ¬ cycleHits s.depth z c) :
    (s.cycle c).cell z = s.cell z := by
  rw [State.cycle_cell]
  cases hwe : c.writeEnable with
  | false => rw [State.afterWrite_of_read hwe]
  | true =>
    rw [State.afterWrite_of_write hwe]
    cases hw : resolve s.depth c.writeAddr with
    | none => exact absurd ⟨hwe, .inr hw⟩ h
    | some y =>
      have hz : z ≠ y := by
        rintro rfl
        exact h ⟨hwe, .inl (resolve_eq_some.mp hw).1⟩
      exact memWrite_cell_other hw hz c.writeData

theorem State.cycle_cell_of_hit (hs : s.mem.Pairwise (fun c d => c.1 < d.1)) (hz : z < s.depth) {c : CycleInput}
    (h : cycleHits s.depth z c) : (s.cycle c).cell z = if c.writeAddr = .int z then c.writeData else .undef := by
  obtain ⟨hwe, hw⟩ := h
  rw [State.cycle_cell, State.afterWrite_of_write hwe]
  have hvalid : resolve s.depth (.int z) = some z := resolve_int_of_lt hz
  rcases hw with hw | hw
  · rw [if_pos hw, hw, memWrite_cell hs hvalid, Function.update_self]
  · have hne : c.writeAddr ≠ .int z := by
      intro heq
      rw [heq, hvalid] at hw
      cases hw
    rw [if_neg hne, memWrite_cell_invalid hw]

theorem State.cycles_cell_of_no_hit {cs : List CycleInput} (h : ∀ x ∈ cs, ¬ cycleHits s.depth z x) :
    (s.cycles cs).cell z = s.cell z := by
  refine (State.cycles_keeps (P := fun t => t.depth = s.depth ∧ t.cell z = s.cell z) ⟨rfl, rfl⟩ ?_).2
  rintro t ⟨hdepth, hcell⟩ c hc
  exact ⟨by simpa using hdepth, (State.cycle_cell_of_not_hit (hdepth ▸ h c hc)).trans hcell⟩

theorem State.cycle_sorted (hs : s.mem.Pairwise (fun c d => c.1 < d.1)) (c : CycleInput) :
    (s.cycle c).mem.Pairwise (fun c d => c.1 < d.1) := by
  rw [State.cycle_mem]
  cases hwe : c.writeEnable with
  | false => rwa [State.afterWrite_of_read hwe]
  | true =>
    rw [State.afterWrite_of_write hwe]
    exact memWrite_sorted hs _ _

theorem State.cycles_sorted (hs : s.mem.Pairwise (fun c d => c.1 < d.1)) (cs : List CycleInput) :
    (s.cycles cs).mem.Pairwise (fun c d => c.1 < d.1) :=
  State.cycles_keeps (P := fun t => t.mem.Pairwise (fun c d => c.1 < d.1)) hs fun _ ht c _ => State.cycle_sorted ht c

/-- R91, R92: the last input that hits a cell decides what it holds. -/
theorem State.cycles_cell_of_last_hit (hs : s.mem.Pairwise (fun c d => c.1 < d.1)) (hz : z < s.depth)
    {before after : List CycleInput} {c : CycleInput} (hc : cycleHits s.depth z c)
    (hafter : ∀ x ∈ after, ¬ cycleHits s.depth z x) :
    (s.cycles (before ++ c :: after)).cell z = if c.writeAddr = .int z then c.writeData else .undef := by
  rw [State.cycles_append, State.cycles_cons, State.cycles_cell_of_no_hit (by simpa using hafter),
    State.cycle_cell_of_hit (State.cycles_sorted hs before) (by simpa using hz) (by simpa using hc)]

/-- Settles O51: the inputs after the last hit leave the cell, and so does a stream without a hit. -/
theorem lastWriterWins : Obligations.LastWriterWins := by
  intro s cs z hs hrun hcs hz
  refine ⟨_, consumes_cycles hrun hcs, State.cycles_cell_of_no_hit, ?_⟩
  rintro before c after rfl hc hafter
  exact State.cycles_cell_of_last_hit hs.array.1 hz hc hafter

/-- Settles O49: the write is the last hit of the cell when the read comes. -/
theorem writtenWordIsReadBack : Obligations.WrittenWordIsReadBack := by
  intro s a ra v between c c' hs hrun ha hbetween hread hadm
  have hcell := State.cycles_cell_of_last_hit hs.array.1 ha (before := []) (c := ⟨ra, true, .int a, v⟩)
    ⟨rfl, .inl rfl⟩ hbetween
  refine ⟨_, consumes_cycles hrun hadm, ?_⟩
  have hout := s.cycles_output_succ (⟨ra, true, .int a, v⟩ :: between) [] c c'
  rw [hread, memRead_int (by simpa using ha)] at hout
  exact hout.trans (congrArg some (by simpa using hcell))

end Sys2Proof.Machine
end

section
/-! SUPPORT. A whole run from reset: the construction and then the cycles, whose outputs are those of the spec's run
(R82, R84, R96). -/

namespace Sys2Proof.Machine

/-! ## The spec's outputs -/

/-- R76: the spec's step on the `N` Words and the register is the cycle of the machine. -/
theorem Block.step_cells {s : State} (hs : s.mem.Pairwise (fun c d => c.1 < d.1)) (c : CycleInput) :
    Block.step s.depth ⟨s.cells, s.q⟩ c = (⟨(s.cycle c).cells, (s.cycle c).q⟩, s.q) := by
  rw [Block.step, Block.memAfter_cells hs, Block.raw_cells]
  rfl

/-- R82: what a block emits over a stream is what the spec's run gives from its Words and its register. -/
theorem State.cycles_emitted_outputs {s : State} (hs : s.mem.Pairwise (fun c d => c.1 < d.1)) (cs : List CycleInput) :
    (s.cycles cs).emitted = s.emitted ++ Block.outputs s.depth ⟨s.cells, s.q⟩ cs := by
  induction cs generalizing s with
  | nil => simp [Block.outputs]
  | cons c cs ih =>
    rw [State.cycles_cons, ih (State.cycle_sorted hs c), Block.outputs, Block.step_cells hs]
    simp

/-! ## The constructed block -/

/-- R67, R16: the block constructed at reset from loaded words, which has consumed nothing yet. -/
def constructed (p : Params) (ws : List Word) : State :=
  State.reset.install p (Memory.ofWords ws)

theorem step_construct_at_reset {p : Params} {ws : List Word} (hp : 1 ≤ p.depth)
    (hws : load p.initText p.width = .ok ws) (hlen : ws.length = p.depth) (cs : List CycleInput) :
    step (State.reset.setEvents (.construct p :: cs.map (fun c => .cycle (.tuple c)))) =
      .next ((constructed p ws).feed cs) := by
  have hevents : cs.map (fun c => Event.cycle (.tuple c)) ++ (constructed p ws).events =
      cs.map (fun c => .cycle (.tuple c)) := List.append_nil _
  rw [step_construct rfl, constructBlock_of_load rfl hp hws hlen, State.feed, hevents]
  rfl

/-- R82, R84: the outputs of a constructed block, the register holding Undefined at the start. -/
theorem constructed_cycles_emitted {p : Params} {ws : List Word} (hlen : ws.length = p.depth)
    (cs : List CycleInput) :
    ((constructed p ws).cycles cs).emitted = Block.outputs p.depth ⟨ws, .undef⟩ cs := by
  have hsorted : (constructed p ws).mem.Pairwise (fun c d => c.1 < d.1) := Memory.ofWordsFrom_sorted 0 ws
  have hcells : (constructed p ws).cells = ws := State.cells_install _ hlen
  rw [State.cycles_emitted_outputs hsorted, hcells]
  rfl

/-- Settles O46: the first output is the register of the constructed block. -/
theorem firstOutputIsUndefined : Obligations.FirstOutputIsUndefined := by
  intro p ws c cs hp hws hlen hadm
  exact ⟨_, _, step_construct_at_reset hp hws hlen [], consumes_cycles rfl hadm,
    (constructed p ws).cycles_output [] cs c⟩

/-! ## The whole run, or its construction error -/

/-- R94, R96: the error of LOAD aborts construction. -/
theorem constructBlock_of_load_error {s : State} {p : Params} {e : Fault} (hph : s.phase = .unbuilt) (hp : 1 ≤ p.depth)
    (he : load p.initText p.width = .error e) : constructBlock p s = .fault e := by
  simp [constructBlock, abortConstruction, Params.wf, hph, hp, he]

/-- All the spec's run can give as its outputs. -/
theorem wholeRun_ok {p : Params} {cs : List CycleInput} {out : List Word} (h : wholeRun p cs = .ok out) :
    ∃ ws, load p.initText p.width = .ok ws ∧ ws.length = p.depth ∧ out = Block.outputs p.depth ⟨ws, .undef⟩ cs := by
  simp only [wholeRun] at h
  split at h
  · cases h
  · rename_i ws hws
    split at h
    · rename_i hlen
      cases h
      exact ⟨ws, hws, hlen, rfl⟩
    · cases h

/-- R96: the error of the spec's run is the one that construction stops with. -/
theorem constructBlock_of_wholeRun_error {s : State} {p : Params} {cs : List CycleInput} {e : Fault}
    (hph : s.phase = .unbuilt) (hp : 1 ≤ p.depth) (h : wholeRun p cs = .error e) : constructBlock p s = .fault e := by
  simp only [wholeRun] at h
  split at h
  · rename_i e' he
    cases h
    exact constructBlock_of_load_error hph hp he
  · rename_i ws hws
    split at h
    · cases h
    · rename_i hlen
      cases h
      exact constructBlock_of_mismatch hph hp hws hlen

/-- Settles O45: the construction is the first step, and the cycles after it emit what the spec's run gives. -/
theorem machineRunIsTheSpecRun : Obligations.MachineRunIsTheSpecRun := by
  refine fun p cs hp hadm => ⟨fun out hout => ?_, fun e he => ?_⟩
  · obtain ⟨ws, hws, hlen, rfl⟩ := wholeRun_ok hout
    have hrest : Consumes (constructed p ws) cs _ := consumes_cycles rfl hadm
    exact ⟨_, (run_of_next _ (step_construct_at_reset hp hws hlen cs)).trans hrest, constructed_cycles_emitted hlen cs⟩
  · exact run_of_fault _ ((step_construct rfl).trans (constructBlock_of_wholeRun_error rfl hp he))

end Sys2Proof.Machine
end

section
/-! SUPPORT. The exceptions of the block (R93): construction alone raises one, for the first malformed line (R94, R99)
or for the number of lines (R95), and for nothing else. -/

namespace Sys2Proof.Machine

/-! ## The first malformed line -/

/-- R99: LOAD reports the first malformed line in file order. -/
theorem load_of_first_malformed {text : List Char} {before after : List (List Char)} {l : List Char}
    (htext : lines text = before ++ l :: after) (hbefore : ∀ x ∈ before, leadingRun x ≠ []) (hl : leadingRun l = [])
    (m : Nat) : load text m = .error (.parseError l) := by
  rw [load, htext]
  exact loadLines_of_first_error (fun x hx => ⟨_, parseLine_of_run (hbefore x hx) m⟩) (parseLine_of_no_run hl m)

/-- Settles O18: LOAD fails with that line, and its error aborts construction before the lengths are compared. -/
theorem parseErrorAbortsConstruction : Obligations.ParseErrorAbortsConstruction := by
  intro s p rest before after l hph he hp htext hbefore hl
  have hload := load_of_first_malformed htext hbefore hl p.width
  exact (step_construct he).trans (constructBlock_of_load_error (s := s.setEvents rest) hph hp hload)

/-! ## All that can fault -/

theorem parseLine_error {s : List Char} {m : Nat} {e : Fault} (h : parseLine s m = .error e) :
    leadingRun s = [] ∧ e = .parseError s := by
  by_cases hrun : leadingRun s = []
  · cases (parseLine_of_no_run hrun m).symm.trans h
    exact ⟨hrun, rfl⟩
  · cases (parseLine_of_run hrun m).symm.trans h

/-- R57, R94: the only error of LOAD is that of a malformed line of the file. -/
theorem load_error {text : List Char} {m : Nat} {e : Fault} (h : load text m = .error e) :
    ∃ l ∈ lines text, leadingRun l = [] ∧ e = .parseError l := by
  obtain ⟨before, l, after, htext, -, hl⟩ := loadLines_error h
  exact ⟨l, by simp [htext], parseLine_error hl⟩

/-- All construction can fault with: the error of LOAD, or the mismatch of a file that loads. -/
theorem constructBlock_fault {p : Params} {s : State} {e : Fault} (h : constructBlock p s = .fault e) :
    s.phase = .unbuilt ∧ 1 ≤ p.depth ∧
      (load p.initText p.width = .error e ∨
        ∃ ws, load p.initText p.width = .ok ws ∧ ws.length ≠ p.depth ∧ e = .depthMismatch p.depth ws.length) := by
  by_cases hph : s.phase = .unbuilt
  case neg => cases (constructBlock_of_constructed hph p).symm.trans h
  by_cases hp : p.depth = 0
  case pos => cases (constructBlock_of_zero_depth hph hp).symm.trans h
  have hpos : 1 ≤ p.depth := Nat.one_le_iff_ne_zero.mpr hp
  refine ⟨hph, hpos, ?_⟩
  cases hload : load p.initText p.width with
  | error e' =>
    cases (constructBlock_of_load_error hph hpos hload).symm.trans h
    exact .inl rfl
  | ok ws =>
    by_cases hlen : ws.length = p.depth
    · cases (constructBlock_of_load hph hpos hload hlen).symm.trans h
    · cases (constructBlock_of_mismatch hph hpos hload hlen).symm.trans h
      exact .inr ⟨ws, rfl, hlen, rfl⟩

theorem endRun_ne_fault (s : State) (e : Fault) : endRun s ≠ .fault e := by
  by_cases hrun : s.phase = .running
  · simp [endRun, hrun]
  · simp [endRun_of_not_running hrun]

/-- R93, R98: a step that faults is the construction of the instance. -/
theorem step_fault {s : State} {e : Fault} (h : step s = .fault e) :
    ∃ p rest, s.events = .construct p :: rest ∧ constructBlock p (s.setEvents rest) = .fault e := by
  simp only [step] at h
  split at h
  · cases h
  · rename_i p rest he
    exact ⟨p, rest, he, h⟩
  · exact absurd h (endRun_ne_fault _ e)
  · rename_i x rest he
    split at h
    · cases h
    · rename_i i hi
      obtain ⟨t, ht⟩ := exec_next i (s.setEvents rest)
      cases ht.symm.trans h

/-- Settles O38: of the steps only construction faults, with a malformed line of the file or with the number of its
lines, which is that of the loaded words. -/
theorem onlyConstructionFaults : Obligations.OnlyConstructionFaults := by
  intro s e h
  obtain ⟨p, rest, he, hconstruct⟩ := step_fault h
  obtain ⟨hph, hp, hcause⟩ := constructBlock_fault hconstruct
  refine ⟨hph, p, rest, he, hp, hcause.imp load_error ?_⟩
  rintro ⟨ws, hws, hlen, rfl⟩
  rw [(loadLines_ok hws).length_eq]
  exact ⟨hlen.symm, rfl⟩

end Sys2Proof.Machine
end
